-- ==== Sys2Proof/Word.lean ====
section
/-! DEFINITION. The word types of the engine (R8 and R71 of the spec): bytes, 16-bit words, 12-bit addresses, and register numbers. -/

namespace Sys2Proof

/-- `u8`: a general register, a timer, a byte of memory, the immediate `kk` (R8). -/
abbrev Byte := BitVec 8

/-- `u16`: `I`, `pc`, a stack entry, an instruction word (R8). -/
abbrev Word := BitVec 16

/-- `u12`: the instruction field `nnn` (R71). -/
abbrev Addr12 := BitVec 12

/-- A register number, the value of a 4-bit field `x` or `y` (R71). -/
abbrev Reg := Fin 16

/-- A sprite height, the value of the 4-bit field `n` of `Dxyn` (R71). -/
abbrev Height := Fin 16

/-- A logical key number 0x0 to 0xF (R28). -/
abbrev Key := Fin 16

/-- `VF`, which is `V[15]` (R10). -/
abbrev VF : Reg := 15

end Sys2Proof
end

