-- ==== Sys2Proof/Config.lean ====
section
/-! DEFINITION. The construction parameters (R6, R31 and R225 of the spec), the fixed sizes (R6), and the one free value, the random byte (R145, R222). -/

namespace Sys2Proof

/-- The three compatibility quirks, "immutable booleans fixed at construction" (R31). -/
structure Quirks where
  /-- `8xy6` and `8xyE` read Vy instead of Vx (R140, R142). -/
  shiftUsesVy : Bool
  /-- `Bnnn` adds Vx instead of V0 (R117). -/
  bnnnUsesVx : Bool
  /-- `Fx55` and `Fx65` advance `I` (R164, R165). -/
  fx55IncreasesI : Bool
  deriving DecidableEq, Repr

/-- `MEM_OOB_POLICY`: `wrap` is decided, `fault` is the named alternative (R6, R56, R203). -/
inductive MemOobPolicy
  | wrap
  | fault
  deriving DecidableEq, Repr

/-- `KEY_INDEX_POLICY`: `fault` is decided, `mask` is the named alternative (R6, R180). -/
inductive KeyIndexPolicy
  | fault
  | mask
  deriving DecidableEq, Repr

/-- `ALU_ALIAS_MODE`: `sequential` is decided, `latched` is the named alternative (R6, R136). -/
inductive AluAliasMode
  | sequential
  | latched
  deriving DecidableEq, Repr

/-- `FX29_BASE`: 0x000 is decided, 0x050 is the named alternative (R6, R55, R162). -/
inductive Fx29Base
  | at000
  | at050
  deriving DecidableEq, Repr

/-- What construction fixes for the engine's lifetime (R6, R225).
`FONT_TABLE` is not here: construction copies it into memory and nothing reads it afterwards. -/
structure Config where
  quirks : Quirks
  memOob : MemOobPolicy
  keyIndex : KeyIndexPolicy
  aluAlias : AluAliasMode
  fx29Base : Fx29Base
  deriving DecidableEq, Repr

/-- The decided parameter values of R6 with the given quirks, which R6 leaves OPEN. -/
def Config.decided (q : Quirks) : Config :=
  { quirks := q, memOob := .wrap, keyIndex := .fault, aluAlias := .sequential, fx29Base := .at000 }

/-- All three quirks off. DESIGN CHOICE, unsafe (log 2): the spec gives no default (R31). -/
def Quirks.allOff : Quirks :=
  { shiftUsesVy := false, bnnnUsesVx := false, fx55IncreasesI := false }

/-- `MEM_SIZE` (R6, R50). -/
abbrev memSize : Nat := 4096

/-- `PROG_BASE` (R6, R51). -/
abbrev progBase : Nat := 0x200

/-- `FONT_BASE` (R6, R53). -/
abbrev fontBase : Nat := 0x050

/-- The length of `FONT_TABLE`: 16 glyphs of 5 bytes (R53). -/
abbrev fontLen : Nat := 80

/-- `STACK_DEPTH` (R6, R25). -/
abbrev stackDepth : Nat := 16

/-- `FB_W` (R6, R29). -/
abbrev fbWidth : Nat := 64

/-- `FB_H` (R6, R29). -/
abbrev fbHeight : Nat := 32

/-- The byte of the n-th draw from the random input port: "any value 0..255" (R145, R222).
A free value: it has no body, so nothing can be proved of it (log 5). -/
opaque Config.freeRandomByte : Nat → Byte

end Sys2Proof
end

