-- ==== Sys2Proof/Syntax.lean ====
section
/-! DEFINITION. The instruction set as syntax: one constructor for each of the 34 rows of R75 and spec/opcode_table.json, and the shape of a row of that table. -/

namespace Sys2Proof

/-- The 34 instructions of R75. The operand types are exactly the field widths of R71, so every value
of this type is an instruction the encoding has (R77): no operand can be out of range. -/
inductive Instr
  /-- `00E0`, CLS (R100). -/
  | cls
  /-- `00EE`, RET (R110). -/
  | ret
  /-- `1nnn`, JP nnn (R111). -/
  | jp (nnn : Addr12)
  /-- `2nnn`, CALL nnn (R112). -/
  | call (nnn : Addr12)
  /-- `3xkk`, SE Vx, kk (R113). -/
  | seImm (x : Reg) (kk : Byte)
  /-- `4xkk`, SNE Vx, kk (R114). -/
  | sneImm (x : Reg) (kk : Byte)
  /-- `5xy0`, SE Vx, Vy (R115). -/
  | seReg (x y : Reg)
  /-- `6xkk`, LD Vx, kk (R130). -/
  | ldImm (x : Reg) (kk : Byte)
  /-- `7xkk`, ADD Vx, kk (R131). -/
  | addImm (x : Reg) (kk : Byte)
  /-- `8xy0`, LD Vx, Vy (R132). -/
  | ldReg (x y : Reg)
  /-- `8xy1`, OR Vx, Vy (R133). -/
  | orReg (x y : Reg)
  /-- `8xy2`, AND Vx, Vy (R134). -/
  | andReg (x y : Reg)
  /-- `8xy3`, XOR Vx, Vy (R135). -/
  | xorReg (x y : Reg)
  /-- `8xy4`, ADD Vx, Vy (R138). -/
  | addReg (x y : Reg)
  /-- `8xy5`, SUB Vx, Vy (R139). -/
  | sub (x y : Reg)
  /-- `8xy6`, SHR Vx, Vy (R140). -/
  | shr (x y : Reg)
  /-- `8xy7`, SUBN Vx, Vy (R141). -/
  | subn (x y : Reg)
  /-- `8xyE`, SHL Vx, Vy (R142). -/
  | shl (x y : Reg)
  /-- `9xy0`, SNE Vx, Vy (R116). -/
  | sneReg (x y : Reg)
  /-- `Annn`, LD I, nnn (R160). -/
  | ldI (nnn : Addr12)
  /-- `Bnnn`, JP V0, nnn (R117). -/
  | jpOff (nnn : Addr12)
  /-- `Cxkk`, RND Vx, kk (R145). -/
  | rnd (x : Reg) (kk : Byte)
  /-- `Dxyn`, DRW Vx, Vy, n (R101). -/
  | drw (x y : Reg) (n : Height)
  /-- `Ex9E`, SKP Vx (R180). -/
  | skp (x : Reg)
  /-- `ExA1`, SKNP Vx (R181). -/
  | sknp (x : Reg)
  /-- `Fx07`, LD Vx, DT (R182). -/
  | ldFromDT (x : Reg)
  /-- `Fx0A`, LD Vx, K (R183). -/
  | waitKey (x : Reg)
  /-- `Fx15`, LD DT, Vx (R184). -/
  | ldToDT (x : Reg)
  /-- `Fx18`, LD ST, Vx (R185). -/
  | ldToST (x : Reg)
  /-- `Fx1E`, ADD I, Vx (R161). -/
  | addI (x : Reg)
  /-- `Fx29`, LD F, Vx (R162). -/
  | ldFont (x : Reg)
  /-- `Fx33`, LD B, Vx (R163). -/
  | bcd (x : Reg)
  /-- `Fx55`, LD [I], Vx (R164). -/
  | store (x : Reg)
  /-- `Fx65`, LD Vx, [I] (R165). -/
  | load (x : Reg)
  deriving DecidableEq, Repr

/-- A row of the opcode table: its pattern as the spec writes it, its mask and its match (R74, R75). -/
structure OpcodeRow where
  pattern : String
  mask : Word
  value : Word
  deriving DecidableEq, Repr

/-- R74's matching rule: `(w & mask) == match`. -/
def OpcodeRow.matchesWord (r : OpcodeRow) (w : Word) : Bool :=
  w &&& r.mask == r.value

end Sys2Proof
end

