-- ==== Sys2Proof/WellFormed.lean ====
section
/-! DEFINITION. The checks on syntax. An `Instr` needs none: its operand types are the field widths of R71 and no field is unused (R77), so an ill-formed instruction cannot be written. What can be ill formed is a row of the opcode table, a font table and a program image. -/

namespace Sys2Proof

/-- A row is well formed when no bit of its match lies outside its mask (R74): one that has such a bit
matches no word at all. -/
def OpcodeRow.wf (r : OpcodeRow) : Bool :=
  r.value &&& ~~~r.mask == 0#16

/-- A font table holds 16 glyphs of 5 bytes (R53). -/
def fontTableWf (font : List Byte) : Bool :=
  font.length == fontLen

/-- A program image fits between `PROG_BASE` and the end of memory (R232): at most 3584 bytes. -/
def imageWf (image : List Byte) : Bool :=
  progBase + image.length ≤ memSize

end Sys2Proof
end

