-- ==== Sys2Proof/Decode.lean ====
section
/-! DEFINITION. Field extraction (R71), the decoder (R76), the encoder, the opcode table of R75 as data, and the reading of an instruction from bytes (R58, R70). -/

namespace Sys2Proof

/-- Field `op` = w[15:12] (R71). -/
def fieldOp (w : Word) : Nat := (w.extractLsb' 12 4).toNat

/-- Field `x` = w[11:8] (R71). -/
def fieldX (w : Word) : Reg := (w.extractLsb' 8 4).toFin

/-- Field `y` = w[7:4] (R71). -/
def fieldY (w : Word) : Reg := (w.extractLsb' 4 4).toFin

/-- Field `n` = w[3:0] (R71). -/
def fieldN (w : Word) : Height := (w.extractLsb' 0 4).toFin

/-- Field `kk` = w[7:0] (R71). -/
def fieldKK (w : Word) : Byte := w.extractLsb' 0 8

/-- Field `nnn` = w[11:0] (R71). -/
def fieldNNN (w : Word) : Addr12 := w.extractLsb' 0 12

/-- What a word decodes to: one of the 34 instructions, or `UNKNOWN(w)` (R76, R78). -/
inductive Decoded
  | instr (i : Instr)
  | unknown (w : Word)
  deriving DecidableEq, Repr

/-- Family 8 dispatches on the lowest nibble (R73, R76). -/
def decodeAlu (w : Word) : Decoded :=
  match (fieldN w).val with
  | 0x0 => .instr (.ldReg (fieldX w) (fieldY w))
  | 0x1 => .instr (.orReg (fieldX w) (fieldY w))
  | 0x2 => .instr (.andReg (fieldX w) (fieldY w))
  | 0x3 => .instr (.xorReg (fieldX w) (fieldY w))
  | 0x4 => .instr (.addReg (fieldX w) (fieldY w))
  | 0x5 => .instr (.sub (fieldX w) (fieldY w))
  | 0x6 => .instr (.shr (fieldX w) (fieldY w))
  | 0x7 => .instr (.subn (fieldX w) (fieldY w))
  | 0xE => .instr (.shl (fieldX w) (fieldY w))
  | _ => .unknown w

/-- Family E dispatches on the lowest byte (R73, R76). -/
def decodeKeys (w : Word) : Decoded :=
  if fieldKK w = 0x9E then .instr (.skp (fieldX w))
  else if fieldKK w = 0xA1 then .instr (.sknp (fieldX w))
  else .unknown w

/-- Family F dispatches on the lowest byte (R73, R76). -/
def decodeMisc (w : Word) : Decoded :=
  if fieldKK w = 0x07 then .instr (.ldFromDT (fieldX w))
  else if fieldKK w = 0x0A then .instr (.waitKey (fieldX w))
  else if fieldKK w = 0x15 then .instr (.ldToDT (fieldX w))
  else if fieldKK w = 0x18 then .instr (.ldToST (fieldX w))
  else if fieldKK w = 0x1E then .instr (.addI (fieldX w))
  else if fieldKK w = 0x29 then .instr (.ldFont (fieldX w))
  else if fieldKK w = 0x33 then .instr (.bcd (fieldX w))
  else if fieldKK w = 0x55 then .instr (.store (fieldX w))
  else if fieldKK w = 0x65 then .instr (.load (fieldX w))
  else .unknown w

/-- R76: total on every word. Every literal digit of a pattern is checked (R74). -/
def decode (w : Word) : Decoded :=
  match fieldOp w with
  | 0x0 => if w = 0x00E0 then .instr .cls else if w = 0x00EE then .instr .ret else .unknown w
  | 0x1 => .instr (.jp (fieldNNN w))
  | 0x2 => .instr (.call (fieldNNN w))
  | 0x3 => .instr (.seImm (fieldX w) (fieldKK w))
  | 0x4 => .instr (.sneImm (fieldX w) (fieldKK w))
  | 0x5 => if (fieldN w).val = 0 then .instr (.seReg (fieldX w) (fieldY w)) else .unknown w
  | 0x6 => .instr (.ldImm (fieldX w) (fieldKK w))
  | 0x7 => .instr (.addImm (fieldX w) (fieldKK w))
  | 0x8 => decodeAlu w
  | 0x9 => if (fieldN w).val = 0 then .instr (.sneReg (fieldX w) (fieldY w)) else .unknown w
  | 0xA => .instr (.ldI (fieldNNN w))
  | 0xB => .instr (.jpOff (fieldNNN w))
  | 0xC => .instr (.rnd (fieldX w) (fieldKK w))
  | 0xD => .instr (.drw (fieldX w) (fieldY w) (fieldN w))
  | 0xE => decodeKeys w
  | _ => decodeMisc w

/-- The word whose first byte is `hi` (bits 15..8) and second byte `lo` (R58, R59). -/
def wordOfBytes (hi lo : Byte) : Word := hi ++ lo

/-- The byte of a word at the lower address: bits 15..8 (R58). -/
def firstByte (w : Word) : Byte := w.extractLsb' 8 8

/-- The byte of a word at the higher address: bits 7..0 (R58). -/
def secondByte (w : Word) : Byte := w.extractLsb' 0 8

/-- What stands at the front of a byte sequence: an instruction or an unknown word with the bytes after
it, or too few bytes for a word (every instruction is 2 bytes long, R70). -/
inductive FromBytes
  | instr (i : Instr) (rest : List Byte)
  | unknown (w : Word) (rest : List Byte)
  | truncated
  deriving DecidableEq, Repr

/-- Decoding of any bytes. -/
def decodeBytes : List Byte → FromBytes
  | hi :: lo :: rest =>
    match decode (wordOfBytes hi lo) with
    | .instr i => .instr i rest
    | .unknown w => .unknown w rest
  | _ => .truncated

/-- The instruction the decoder reads from a table word of `nbits` bits (bits above `nbits` are 0), laid
out big-endian as R58 fetches it; `none` for an unknown word. -/
def decodeTableWord (nbits w : Nat) : Option Instr :=
  let word : Word := BitVec.ofNat 16 (w % 2 ^ nbits)
  match decodeBytes [firstByte word, secondByte word] with
  | .instr i _ => some i
  | .unknown _ _ => none
  | .truncated => none

/-- A word of form `op nnn` (R71). -/
def packNNN (op : BitVec 4) (nnn : Addr12) : Word := op ++ nnn

/-- A word of form `op x kk` (R71). -/
def packXKK (op : BitVec 4) (x : Reg) (kk : Byte) : Word := (op ++ BitVec.ofFin (w := 4) x) ++ kk

/-- A word of form `op x y n` (R71). -/
def packXYN (op : BitVec 4) (x y : Reg) (n : BitVec 4) : Word :=
  ((op ++ BitVec.ofFin (w := 4) x) ++ BitVec.ofFin (w := 4) y) ++ n

/-- The word of an instruction, from the patterns of R75. -/
def encode : Instr → Word
  | .cls => 0x00E0
  | .ret => 0x00EE
  | .jp nnn => packNNN 0x1 nnn
  | .call nnn => packNNN 0x2 nnn
  | .seImm x kk => packXKK 0x3 x kk
  | .sneImm x kk => packXKK 0x4 x kk
  | .seReg x y => packXYN 0x5 x y 0x0
  | .ldImm x kk => packXKK 0x6 x kk
  | .addImm x kk => packXKK 0x7 x kk
  | .ldReg x y => packXYN 0x8 x y 0x0
  | .orReg x y => packXYN 0x8 x y 0x1
  | .andReg x y => packXYN 0x8 x y 0x2
  | .xorReg x y => packXYN 0x8 x y 0x3
  | .addReg x y => packXYN 0x8 x y 0x4
  | .sub x y => packXYN 0x8 x y 0x5
  | .shr x y => packXYN 0x8 x y 0x6
  | .subn x y => packXYN 0x8 x y 0x7
  | .shl x y => packXYN 0x8 x y 0xE
  | .sneReg x y => packXYN 0x9 x y 0x0
  | .ldI nnn => packNNN 0xA nnn
  | .jpOff nnn => packNNN 0xB nnn
  | .rnd x kk => packXKK 0xC x kk
  | .drw x y n => packXYN 0xD x y (BitVec.ofFin (w := 4) n)
  | .skp x => packXKK 0xE x 0x9E
  | .sknp x => packXKK 0xE x 0xA1
  | .ldFromDT x => packXKK 0xF x 0x07
  | .waitKey x => packXKK 0xF x 0x0A
  | .ldToDT x => packXKK 0xF x 0x15
  | .ldToST x => packXKK 0xF x 0x18
  | .addI x => packXKK 0xF x 0x1E
  | .ldFont x => packXKK 0xF x 0x29
  | .bcd x => packXKK 0xF x 0x33
  | .store x => packXKK 0xF x 0x55
  | .load x => packXKK 0xF x 0x65

/-- The bytes of an instruction, the first at the lower address (R58). -/
def encodeBytes (i : Instr) : List Byte := [firstByte (encode i), secondByte (encode i)]

/-- The row of R75 an instruction belongs to. -/
def Instr.row : Instr → OpcodeRow
  | .cls => ⟨"00E0", 0xFFFF, 0x00E0⟩
  | .ret => ⟨"00EE", 0xFFFF, 0x00EE⟩
  | .jp _ => ⟨"1nnn", 0xF000, 0x1000⟩
  | .call _ => ⟨"2nnn", 0xF000, 0x2000⟩
  | .seImm _ _ => ⟨"3xkk", 0xF000, 0x3000⟩
  | .sneImm _ _ => ⟨"4xkk", 0xF000, 0x4000⟩
  | .seReg _ _ => ⟨"5xy0", 0xF00F, 0x5000⟩
  | .ldImm _ _ => ⟨"6xkk", 0xF000, 0x6000⟩
  | .addImm _ _ => ⟨"7xkk", 0xF000, 0x7000⟩
  | .ldReg _ _ => ⟨"8xy0", 0xF00F, 0x8000⟩
  | .orReg _ _ => ⟨"8xy1", 0xF00F, 0x8001⟩
  | .andReg _ _ => ⟨"8xy2", 0xF00F, 0x8002⟩
  | .xorReg _ _ => ⟨"8xy3", 0xF00F, 0x8003⟩
  | .addReg _ _ => ⟨"8xy4", 0xF00F, 0x8004⟩
  | .sub _ _ => ⟨"8xy5", 0xF00F, 0x8005⟩
  | .shr _ _ => ⟨"8xy6", 0xF00F, 0x8006⟩
  | .subn _ _ => ⟨"8xy7", 0xF00F, 0x8007⟩
  | .shl _ _ => ⟨"8xyE", 0xF00F, 0x800E⟩
  | .sneReg _ _ => ⟨"9xy0", 0xF00F, 0x9000⟩
  | .ldI _ => ⟨"Annn", 0xF000, 0xA000⟩
  | .jpOff _ => ⟨"Bnnn", 0xF000, 0xB000⟩
  | .rnd _ _ => ⟨"Cxkk", 0xF000, 0xC000⟩
  | .drw _ _ _ => ⟨"Dxyn", 0xF000, 0xD000⟩
  | .skp _ => ⟨"Ex9E", 0xF0FF, 0xE09E⟩
  | .sknp _ => ⟨"ExA1", 0xF0FF, 0xE0A1⟩
  | .ldFromDT _ => ⟨"Fx07", 0xF0FF, 0xF007⟩
  | .waitKey _ => ⟨"Fx0A", 0xF0FF, 0xF00A⟩
  | .ldToDT _ => ⟨"Fx15", 0xF0FF, 0xF015⟩
  | .ldToST _ => ⟨"Fx18", 0xF0FF, 0xF018⟩
  | .addI _ => ⟨"Fx1E", 0xF0FF, 0xF01E⟩
  | .ldFont _ => ⟨"Fx29", 0xF0FF, 0xF029⟩
  | .bcd _ => ⟨"Fx33", 0xF0FF, 0xF033⟩
  | .store _ => ⟨"Fx55", 0xF0FF, 0xF055⟩
  | .load _ => ⟨"Fx65", 0xF0FF, 0xF065⟩

/-- One instruction of each of the 34 rows, in the order of R75. -/
def oneOfEach : List Instr :=
  [.cls, .ret, .jp 0, .call 0, .seImm 0 0, .sneImm 0 0, .seReg 0 0, .ldImm 0 0, .addImm 0 0] ++
  [.ldReg 0 0, .orReg 0 0, .andReg 0 0, .xorReg 0 0, .addReg 0 0, .sub 0 0, .shr 0 0, .subn 0 0, .shl 0 0] ++
  [.sneReg 0 0, .ldI 0, .jpOff 0, .rnd 0 0, .drw 0 0 0, .skp 0, .sknp 0] ++
  [.ldFromDT 0, .waitKey 0, .ldToDT 0, .ldToST 0, .addI 0, .ldFont 0, .bcd 0, .store 0, .load 0]

/-- The complete opcode table of R75. -/
def opcodeTable : List OpcodeRow := oneOfEach.map Instr.row

end Sys2Proof
end

