-- ==== Sys2Proof/Machine/State.lean ====
section
/-! DEFINITION. The machine's state as plain data (R20 to R36 of the spec), the reasons a step can stop, and the state after reset (R36, R230). -/

namespace Sys2Proof.Machine

/-- The reasons a step can end in a fault OUTSIDE the spec's own fatal faults: there are none, so this
type is empty and no step ends so. The spec's fatal faults (R200 to R203) have a described effect, the
run status becomes `halted` and every later step does nothing, so they are next states (`FatalCause`,
log 3). Safe: nothing is stopped here that the spec runs on. -/
inductive Fault
  deriving DecidableEq, Repr

/-- The reasons a step can be refused. -/
inductive Refusal
  /-- Raised by an arm of `exec` whose instruction has no meaning yet. No arm raises it: all 34 have one. Safe. -/
  | notModelled (mnemonic : String)
  deriving DecidableEq, Repr

/-- The fatal faults of the table in section 1 of spec/60_exceptions.md, with what each records beside
the fetch address and the word. -/
inductive FatalCause
  /-- Code 0x01, `00EE` with an empty stack (R200). -/
  | stackUnderflow
  /-- Code 0x02, `2nnn` with 16 entries held (R201). -/
  | stackOverflow
  /-- Code 0x03, `Ex9E` or `ExA1` with V[x] above 15, under `KEY_INDEX_POLICY = fault`; records V[x] (R202). -/
  | keyIndexOutOfRange (v : Byte)
  /-- Code 0x04, only under `MEM_OOB_POLICY = fault`; records the first out-of-range address (R203). -/
  | addressOutOfRange (a : Nat)
  deriving DecidableEq, Repr

/-- The fault record: `A` is the fetch address of the step and `w` the fetched word (R200, and the table
of spec/60_exceptions.md). `w` is `none` only for an AddressOutOfRange raised by the fetch itself, which
fetched no word (DEDUCED, log 8). -/
structure FaultRecord where
  cause : FatalCause
  A : Word
  w : Option Word
  deriving DecidableEq, Repr

/-- The run status (R32). -/
inductive RunStatus
  | running
  | halted (record : FaultRecord)
  deriving DecidableEq, Repr

/-- An UnknownOpcode report, "carrying `A` and `w`" (R204). -/
structure Diagnostic where
  A : Word
  w : Word
  deriving DecidableEq, Repr

/-- The two output events of a step (R33). The model's own place for them is the state (log 4). -/
structure Outputs where
  beep : Bool
  diag : Option Diagnostic
  deriving DecidableEq, Repr

/-- No beep and no diagnostic. -/
abbrev Outputs.silent : Outputs := { beep := false, diag := none }

/-- Memory as the list of its bytes that differ from the contents after construction, by rising address
(R50 to R54; its form is `Memory.wf`, log 7). -/
abbrev Memory := List Host.Cell

/-- The framebuffer, row-major (R29): row `py` is a word of 64 pixels whose bit `px` is the pixel in
column `px` (log 11). -/
abbrev Framebuffer := Vector (BitVec 64) 32

/-- Everything the spec gives the engine, and two fields of the model's own, `out` and `draws`. -/
structure State where
  /-- V0 to VF (R20). -/
  V : Vector Byte 16
  /-- The index register, all 16 bits stored (R22). -/
  I : Word
  /-- The program counter, stored unmasked (R23). -/
  pc : Word
  /-- The call stack, the most recently pushed entry first (R25). -/
  stack : List Word
  /-- The delay timer (R26). -/
  DT : Byte
  /-- The sound timer (R27). -/
  ST : Byte
  /-- The keypad, true while the key is down (R28). -/
  keys : Vector Bool 16
  /-- The framebuffer (R29). -/
  fb : Framebuffer
  /-- The draw flag (R30). -/
  drawFlag : Bool
  /-- The run status (R32). -/
  status : RunStatus
  /-- The 4096 bytes of memory (R50). -/
  mem : Memory
  /-- What construction fixed (R6, R31); no step changes it. -/
  cfg : Config
  /-- The outputs of the last step (R33). -/
  out : Outputs
  /-- How many random bytes have been drawn (R145); the model's own, log 5. -/
  draws : Nat
  deriving DecidableEq, Repr

/-- The state after construction with the decided parameters (R6), the default font (R54) and all
quirks off (log 2), each field as R36 and R230 give it. -/
def State.reset : State where
  V := Vector.replicate 16 0
  I := 0
  pc := 0x200
  stack := []
  DT := 0
  ST := 0
  keys := Vector.replicate 16 false
  fb := Vector.replicate 32 0
  drawFlag := false
  status := .running
  mem := []
  cfg := .decided .allOff
  out := .silent
  draws := 0

/-- What a meaning and a step answer. -/
abbrev Answer := Host.Outcome State Fault Refusal

end Sys2Proof.Machine
end

