-- ==== Sys2Proof/Machine/Ops.lean ====
section
/-! DEFINITION. The shared operations over memory (R50 to R61), registers, the call stack (R25), fatal faults (R95, R200 to R208), fetch (R58, R90, R91) and the timer tick (R210). -/

namespace Sys2Proof.Machine

/-! ### Memory -/

/-- The conventional glyphs of R54, five rows a digit. PRESUMED, unsafe (log 6): the spec marks the bytes
as general knowledge, not in its source. -/
def defaultFont : List Byte :=
  [0xF0, 0x90, 0x90, 0x90, 0xF0] ++ [0x20, 0x60, 0x20, 0x20, 0x70] ++
  [0xF0, 0x10, 0xF0, 0x80, 0xF0] ++ [0xF0, 0x10, 0xF0, 0x10, 0xF0] ++
  [0x90, 0x90, 0xF0, 0x10, 0x10] ++ [0xF0, 0x80, 0xF0, 0x10, 0xF0] ++
  [0xF0, 0x80, 0xF0, 0x90, 0xF0] ++ [0xF0, 0x10, 0x20, 0x40, 0x40] ++
  [0xF0, 0x90, 0xF0, 0x90, 0xF0] ++ [0xF0, 0x90, 0xF0, 0x10, 0xF0] ++
  [0xF0, 0x90, 0xF0, 0x90, 0x90] ++ [0xE0, 0x90, 0xE0, 0x90, 0xE0] ++
  [0xF0, 0x80, 0x80, 0x80, 0xF0] ++ [0xE0, 0x90, 0x90, 0x90, 0xE0] ++
  [0xF0, 0x80, 0xF0, 0x80, 0xF0] ++ [0xF0, 0x80, 0xF0, 0x80, 0x80]

/-- What an unlisted address reads as: its byte after construction with the default font, which is 0
outside 0x050 to 0x09F (R50, R53; log 7). -/
def unlisted (a : Nat) : Byte :=
  if a < fontBase then 0 else defaultFont.getD (a - fontBase) 0

/-- The byte at an address below `memSize`. -/
def Memory.read : Memory → Nat → Byte
  | [], a => unlisted a
  | (b, w) :: rest, a => if b = a then w else Memory.read rest a

/-- The memory with one byte changed, in canonical form: a byte equal to what an unlisted address reads
as is not listed. -/
def Memory.write : Memory → Nat → Byte → Memory
  | [], a, v => if v = unlisted a then [] else [(a, v)]
  | (b, w) :: rest, a, v =>
    if a < b then
      if v = unlisted a then (b, w) :: rest else (a, v) :: (b, w) :: rest
    else if a = b then
      if v = unlisted a then rest else (a, v) :: rest
    else (b, w) :: Memory.write rest a v

/-- The canonical form: addresses strictly rising, inside memory, and no byte listed that an unlisted
address would read as anyway. -/
abbrev Memory.wf (m : Memory) : Prop :=
  m.Pairwise (fun p q => p.1 < q.1) ∧ ∀ p ∈ m, p.1 < memSize ∧ p.2 ≠ unlisted p.1

/-- The effective address (R56). -/
def ea (a : Nat) : Nat := a % memSize

/-- `MemRead(a, 1)` (R57). -/
def State.readByte (s : State) (a : Nat) : Byte := s.mem.read (ea a)

/-- `MemWrite(a, 1, v)` (R57). -/
def State.writeByte (s : State) (a : Nat) (v : Byte) : State :=
  { s with mem := s.mem.write (ea a) v }

/-- Bytes written one after the other from `base` on, each at its own effective address (R57). -/
def State.writeBytes : State → Nat → List Byte → State
  | s, _, [] => s
  | s, base, v :: vs => (s.writeByte base v).writeBytes (base + 1) vs

/-- R203: under `MEM_OOB_POLICY = fault`, the first out-of-range address of an access to `count` bytes
from `base` on, or none when every byte lies inside memory; under `wrap` there is never one. -/
def State.rangeFault (s : State) (base count : Nat) : Option Nat :=
  match s.cfg.memOob with
  | .wrap => none
  | .fault => if count = 0 ∨ base + count ≤ memSize then none else some (max base memSize)

/-! ### Registers -/

/-- `V[r]` (R9, R20). -/
def State.getV (s : State) (r : Reg) : Byte := s.V.get r

/-- `V[r] <- v` (R9, R20). No register is hard-wired. -/
def State.setV (s : State) (r : Reg) (v : Byte) : State :=
  { s with V := s.V.set r.val v }

/-- `pc <- v` (R9, R23). -/
def State.setPc (s : State) (v : Word) : State := { s with pc := v }

/-- `I <- v` (R9, R22). -/
def State.setI (s : State) (v : Word) : State := { s with I := v }

/-- `DT <- v` (R9, R26). -/
def State.setDT (s : State) (v : Byte) : State := { s with DT := v }

/-- `ST <- v` (R9, R27). -/
def State.setST (s : State) (v : Byte) : State := { s with ST := v }

/-- The call stack with other entries (R25). -/
def State.setStack (s : State) (entries : List Word) : State := { s with stack := entries }

/-- The framebuffer replaced and the draw flag set: only `00E0` and `Dxyn` do so (R30, R102). -/
def State.setDisplay (s : State) (fb : Framebuffer) : State := { s with fb := fb, drawFlag := true }

/-- One more random byte drawn (R145, log 5). -/
def State.countDraw (s : State) : State := { s with draws := s.draws + 1 }

/-- `pc <- (pc + 2) mod 2^16` when the condition holds: a skip (R12, R91). -/
def State.skipIf (s : State) (c : Bool) : State := s.setPc (if c then s.pc + 2 else s.pc)

/-! ### Fatal faults: taking one, and why nothing returns from it -/

/-- Taking a fatal fault (R95, R208): the run status becomes `halted` with the fault's record. There is
no vector, no saved register and no mode change. The rest of the state keeps the values it had when
the fault was raised (log 3). There is no return from it: a halted engine stays halted until a new
construction (R209), and a halted engine's step does nothing (R32). -/
def State.halt (s : State) (r : FaultRecord) : State := { s with status := .halted r }

/-- The fetch address `A` of the instruction being executed: `pc` is `A + 2` throughout the execute
phase (R91). -/
def State.fetchAddress (s : State) : Word := s.pc - 2

/-- `raise <Fault>` in the execute phase of `i` (R9): the record holds `A` and the word of `i`, which is
the fetched word because no bit of an instruction is unused (R77, log 9). -/
def State.raise (s : State) (c : FatalCause) (i : Instr) : State :=
  s.halt { cause := c, A := s.fetchAddress, w := some (encode i) }

/-- The execute phase of a memory instruction `i` that accesses `count` bytes from `base` on: the check
of R203 comes before its first access, so that a fault leaves no partial effect. -/
def State.access (s : State) (base count : Nat) (i : Instr) (effect : State → State) : State :=
  match s.rangeFault base count with
  | some a => s.raise (.addressOutOfRange a) i
  | none => effect s

/-- The codes of the table in section 1 of spec/60_exceptions.md. -/
def FatalCause.code : FatalCause → Byte
  | .stackUnderflow => 0x01
  | .stackOverflow => 0x02
  | .keyIndexOutOfRange _ => 0x03
  | .addressOutOfRange _ => 0x04

/-- The code of the UnknownOpcode diagnostic (R204). -/
def unknownOpcodeCode : Byte := 0x10

/-! ### The call stack -/

/-- `push(v)`: none when 16 entries are held (R25). -/
def State.push (s : State) (v : Word) : Option State :=
  if s.stack.length < stackDepth then some (s.setStack (v :: s.stack)) else none

/-- `pop()`: none when the stack is empty (R25). -/
def State.pop (s : State) : Option (Word × State) :=
  match s.stack with
  | [] => none
  | v :: rest => some (v, s.setStack rest)

/-! ### Fetch, diagnostics and the timer tick -/

/-- `MemRead(pc, 2)`, big-endian (R58). -/
def State.fetchWord (s : State) : Word :=
  wordOfBytes (s.readByte s.pc.toNat) (s.readByte (s.pc.toNat + 1))

/-- No beep and no diagnostic so far: the start of a step. -/
def State.quiet (s : State) : State := { s with out := .silent }

/-- `pc <- (pc + 2) mod 2^16`, before the execute phase (R91). -/
def State.advance (s : State) : State := s.setPc (s.pc + 2)

/-- A fetch that is out of range under `MEM_OOB_POLICY = fault`: no word is fetched and `pc` is not
advanced (R203, log 8). -/
def State.fetchFault (s : State) (a : Nat) : State :=
  s.halt { cause := .addressOutOfRange a, A := s.pc, w := none }

/-- `report UnknownOpcode(w)`, carrying the fetch address and the word (R93, R204). -/
def State.reportUnknown (s : State) (w : Word) : State :=
  { s with out := { s.out with diag := some { A := s.fetchAddress, w := w } } }

/-- A timer after one tick: it counts down and stops at 0 (R210). -/
def tickDown (t : Byte) : Byte := if t = 0 then 0 else t - 1

/-- The timer tick with its beep edge (R210). -/
def State.timerTick (s : State) : State :=
  { s with
    DT := tickDown s.DT
    ST := tickDown s.ST
    out := { s.out with beep := s.ST == 1 } }

/-- The end of a step: the timer tick, unless a fatal fault ended the step (R90, R95). -/
def State.endStep (s : State) : State :=
  match s.status with
  | .running => s.timerTick
  | .halted _ => s

end Sys2Proof.Machine
end

