-- ==== Sys2Proof/Machine/Operands.lean ====
section
/-! DEFINITION. The operand forms of R72: zero-extended addresses, register ranges, the register of `Bnnn`, the source of a shift, key numbers, the font address and decimal digits. -/

namespace Sys2Proof.Machine

/-- `zext_16(nnn)` (R72). -/
def zextAddr (nnn : Addr12) : Word := nnn.setWidth 16

/-- `zext_16(v)` of a byte (R8). -/
def zextByte (v : Byte) : Word := v.setWidth 16

/-- The registers V0 to Vx, in order: the operand of `Fx55` and `Fx65` (R72). -/
def regsUpTo (x : Reg) : List Reg := (List.finRange 16).filter (fun r => r.val ≤ x.val)

/-- The register `Bnnn` adds: V0, or under the quirk the register of w[11:8], which is the top nibble of
`nnn` (R117). -/
def State.offsetReg (s : State) (nnn : Addr12) : Reg :=
  if s.cfg.quirks.bnnnUsesVx then (nnn.extractLsb' 8 4).toFin else 0

/-- The operand a shift reads, of the values of Vx and Vy: Vy under the quirk, otherwise Vx (R140, R142). -/
def State.shiftSource (s : State) (vx vy : Byte) : Byte :=
  if s.cfg.quirks.shiftUsesVy then vy else vx

/-- The key a register value names for `Ex9E` and `ExA1`: none when it exceeds 15 under
`KEY_INDEX_POLICY = fault`, its low four bits under `mask` (R180, R181). -/
def State.keyNumber (s : State) (v : Byte) : Option Key :=
  match s.cfg.keyIndex with
  | .fault => if h : v.toNat < 16 then some ⟨v.toNat, h⟩ else none
  | .mask => some ⟨v.toNat % 16, Nat.mod_lt _ (by decide)⟩

/-- `Key(k)` (R9, R28). -/
def State.keyDown (s : State) (k : Key) : Bool := s.keys.get k

/-- The lowest key that is down, "scanned low index to high" (R183). -/
def State.lowestKeyDown (s : State) : Option Key := (List.finRange 16).find? s.keyDown

/-- `FX29_BASE` (R6, R162). -/
def fx29Address : Fx29Base → Nat
  | .at000 => 0x000
  | .at050 => 0x050

/-- The three decimal digits of a byte: hundreds, tens, ones (R163). -/
def decimalDigits (v : Byte) : List Byte :=
  [BitVec.ofNat 8 (v.toNat / 100), BitVec.ofNat 8 (v.toNat / 10 % 10), BitVec.ofNat 8 (v.toNat % 10)]

end Sys2Proof.Machine
end

