-- ==== Sys2Proof/Machine/Flags.lean ====
section
/-! DEFINITION. Every flag the spec computes (R21, R137): all of them are written to VF as 0 or 1. And the shared shape of the instructions that write VF first and the result second (R136). -/

namespace Sys2Proof.Machine

/-- A condition as the value VF receives: 1 or 0. -/
def flagByte (c : Bool) : Byte := if c then 1 else 0

/-- The carry of an addition: the exact sum exceeds 0xFF (R137, R138). -/
def carryFlag (a b : Byte) : Byte := flagByte (decide (a.toNat + b.toNat > 0xFF))

/-- The no-borrow flag of `a - b`: `a > b`, strictly (R137, R139, R141). -/
def noBorrowFlag (a b : Byte) : Byte := flagByte (decide (a.toNat > b.toNat))

/-- The bit a right shift by one moves out: bit 0 (R140). -/
def shiftOutRight (a : Byte) : Byte := flagByte (a.getLsbD 0)

/-- The bit a left shift by one moves out: bit 7 (R142). -/
def shiftOutLeft (a : Byte) : Byte := flagByte (a.getLsbD 7)

/-- `8xy5`, `8xy6`, `8xy7` and `8xyE` write VF first and Vx second. Under `ALU_ALIAS_MODE = sequential`
the second statement reads the registers as the first left them; under `latched` both read the
registers as they were (R136). `flag` and `result` are functions of the values of Vx and Vy. -/
def State.flagThenResult (s : State) (x y : Reg) (flag result : Byte → Byte → Byte) : State :=
  let flagged := s.setV VF (flag (s.getV x) (s.getV y))
  match s.cfg.aluAlias with
  | .sequential => flagged.setV x (result (flagged.getV x) (flagged.getV y))
  | .latched => flagged.setV x (result (s.getV x) (s.getV y))

end Sys2Proof.Machine
end

