-- ==== Sys2Proof/Machine/Alu.lean ====
section
/-! DEFINITION. The register ALU (spec/43_alu.md): `6xkk`, `7xkk`, `8xy0` to `8xy7`, `8xyE` and `Cxkk`. -/

namespace Sys2Proof.Machine

/-- `6xkk` (R130). -/
def execLdImm (x : Reg) (kk : Byte) (s : State) : Answer := .next (s.setV x kk)

/-- `7xkk`: no flag (R131). -/
def execAddImm (x : Reg) (kk : Byte) (s : State) : Answer := .next (s.setV x (s.getV x + kk))

/-- `8xy0` (R132). -/
def execLdReg (x y : Reg) (s : State) : Answer := .next (s.setV x (s.getV y))

/-- `8xy1`: VF is not reset (R133). -/
def execOr (x y : Reg) (s : State) : Answer := .next (s.setV x (s.getV x ||| s.getV y))

/-- `8xy2` (R134). -/
def execAnd (x y : Reg) (s : State) : Answer := .next (s.setV x (s.getV x &&& s.getV y))

/-- `8xy3` (R135). -/
def execXor (x y : Reg) (s : State) : Answer := .next (s.setV x (s.getV x ^^^ s.getV y))

/-- `8xy4`: the sum is taken before either write and the flag is written last (R136, R138). -/
def execAddReg (x y : Reg) (s : State) : Answer :=
  .next ((s.setV x (s.getV x + s.getV y)).setV VF (carryFlag (s.getV x) (s.getV y)))

/-- `8xy5` (R139). -/
def execSub (x y : Reg) (s : State) : Answer :=
  .next (s.flagThenResult x y noBorrowFlag (fun vx vy => vx - vy))

/-- `8xy6` (R140). -/
def execShr (x y : Reg) (s : State) : Answer :=
  .next (s.flagThenResult x y (fun vx vy => shiftOutRight (s.shiftSource vx vy))
    (fun vx vy => s.shiftSource vx vy >>> 1))

/-- `8xy7` (R141). -/
def execSubn (x y : Reg) (s : State) : Answer :=
  .next (s.flagThenResult x y (fun vx vy => noBorrowFlag vy vx) (fun vx vy => vy - vx))

/-- `8xyE` (R142). -/
def execShl (x y : Reg) (s : State) : Answer :=
  .next (s.flagThenResult x y (fun vx vy => shiftOutLeft (s.shiftSource vx vy))
    (fun vx vy => s.shiftSource vx vy <<< 1))

/-- `Cxkk`: exactly one draw, whose byte is free (R145, log 5). -/
def execRnd (x : Reg) (kk : Byte) (s : State) : Answer :=
  .next (s.setV x (Config.freeRandomByte s.draws &&& kk)).countDraw

end Sys2Proof.Machine
end

