-- ==== Sys2Proof/Machine/Control.lean ====
section
/-! DEFINITION. Control transfer, the call stack and the skips (spec/42_control_flow.md): `00EE`, `1nnn`, `2nnn`, `3xkk`, `4xkk`, `5xy0`, `9xy0` and `Bnnn`. -/

namespace Sys2Proof.Machine

/-- `00EE`: raises StackUnderflow on an empty stack (R110, R200). -/
def execRet (s : State) : Answer :=
  match s.pop with
  | some (v, t) => .next (t.setPc v)
  | none => .next (s.raise .stackUnderflow .ret)

/-- `1nnn` (R111). -/
def execJp (nnn : Addr12) (s : State) : Answer := .next (s.setPc (zextAddr nnn))

/-- `2nnn`: pushes the advanced `pc`; raises StackOverflow when 16 entries are held (R112, R201). -/
def execCall (nnn : Addr12) (s : State) : Answer :=
  match s.push s.pc with
  | some t => .next (t.setPc (zextAddr nnn))
  | none => .next (s.raise .stackOverflow (.call nnn))

/-- `3xkk` (R113). -/
def execSeImm (x : Reg) (kk : Byte) (s : State) : Answer := .next (s.skipIf (s.getV x == kk))

/-- `4xkk` (R114). -/
def execSneImm (x : Reg) (kk : Byte) (s : State) : Answer := .next (s.skipIf (s.getV x != kk))

/-- `5xy0` (R115). -/
def execSeReg (x y : Reg) (s : State) : Answer := .next (s.skipIf (s.getV x == s.getV y))

/-- `9xy0` (R116). -/
def execSneReg (x y : Reg) (s : State) : Answer := .next (s.skipIf (s.getV x != s.getV y))

/-- `Bnnn` (R117). -/
def execJpOff (nnn : Addr12) (s : State) : Answer :=
  .next (s.setPc (zextAddr nnn + zextByte (s.getV (s.offsetReg nnn))))

end Sys2Proof.Machine
end

