-- ==== Sys2Proof/Machine/Display.lean ====
section
/-! DEFINITION. The display unit (spec/41_display.md): the framebuffer's pixels, `00E0` and `Dxyn`. -/

namespace Sys2Proof.Machine

/-- The pixel in column `px` and row `py`, which is `FB[py * 64 + px]` (R29). -/
def fbPixel (fb : Framebuffer) (px : Fin 64) (py : Fin 32) : Bool := (fb.get py).getLsbD px.val

/-- `FB[py * 64 + px] <- FB[py * 64 + px] XOR 1` (R101). -/
def fbFlip (fb : Framebuffer) (px : Fin 64) (py : Fin 32) : Framebuffer :=
  fb.set py.val (fb.get py ^^^ (1#64 <<< px.val))

/-- `00E0` (R100). -/
def execCls (s : State) : Answer :=
  .next (s.setDisplay (Vector.replicate 32 0))

/-- The framebuffer while a sprite is drawn, and whether a set pixel has been unset so far. -/
structure Drawing where
  fb : Framebuffer
  hit : Bool
  deriving DecidableEq, Repr

/-- The column a sprite column falls on: `(cx + col) mod 64` (R101). -/
def spriteColumn (cx : Byte) (col : Nat) : Fin 64 := ⟨(cx.toNat + col) % 64, Nat.mod_lt _ (by decide)⟩

/-- The row a sprite row falls on: `(cy + row) mod 32` (R101). -/
def spriteRow (cy : Byte) (row : Nat) : Fin 32 := ⟨(cy.toNat + row) % 32, Nat.mod_lt _ (by decide)⟩

/-- One sprite bit XORed into its pixel: the leftmost column is the byte's most significant bit (R101). -/
def drawBit (px : Fin 64) (py : Fin 32) (bit : Bool) (d : Drawing) : Drawing :=
  if bit then { fb := fbFlip d.fb px py, hit := d.hit || fbPixel d.fb px py } else d

/-- One sprite row: eight columns, the most significant bit first (R101). -/
def drawRow (cx : Byte) (py : Fin 32) (b : Byte) (d : Drawing) : Drawing :=
  (List.range 8).foldl (fun e col => drawBit (spriteColumn cx col) py (b.getLsbD (7 - col)) e) d

/-- The rows of a sprite, row `row` taking its byte from `bytes row` (R101). -/
def drawSprite (cx cy : Byte) (bytes : Nat → Byte) (n : Nat) (d : Drawing) : Drawing :=
  (List.range n).foldl (fun e row => drawRow cx (spriteRow cy row) (bytes row) e) d

/-- `Dxyn`: the coordinates are read before VF is cleared, and VF ends as the collision flag (R101). -/
def execDrw (x y : Reg) (n : Height) (s : State) : Answer :=
  .next (s.access s.I.toNat n.val (.drw x y n) (fun t =>
    let cleared := t.setV VF 0
    let d := drawSprite (t.getV x) (t.getV y) (fun row => cleared.readByte (t.I.toNat + row)) n.val
      { fb := t.fb, hit := false }
    (cleared.setV VF (flagByte d.hit)).setDisplay d.fb))

end Sys2Proof.Machine
end

