-- ==== Sys2Proof/Machine/Index.lean ====
section
/-! DEFINITION. The index register and memory transfer (spec/44_index_memory.md): `Annn`, `Fx1E`, `Fx29`, `Fx33`, `Fx55` and `Fx65`. -/

namespace Sys2Proof.Machine

/-- `Annn` (R160). -/
def execLdI (nnn : Addr12) (s : State) : Answer := .next (s.setI (zextAddr nnn))

/-- `Fx1E`: 16-bit wraparound, no flag (R161). -/
def execAddI (x : Reg) (s : State) : Answer := .next (s.setI (s.I + zextByte (s.getV x)))

/-- `Fx29`: `FX29_BASE + Vx * 5`; Vx is not masked (R162). -/
def execLdFont (x : Reg) (s : State) : Answer :=
  .next (s.setI (BitVec.ofNat 16 (fx29Address s.cfg.fx29Base + (s.getV x).toNat * 5)))

/-- `Fx33` (R163). -/
def execBcd (x : Reg) (s : State) : Answer :=
  .next (s.access s.I.toNat 3 (.bcd x) (fun t => t.writeBytes t.I.toNat (decimalDigits (t.getV x))))

/-- `I <- (I + x + 1) mod 2^16` under `quirks.fx55_increases_i` (R164, R165). -/
def State.advanceIndex (s : State) (x : Reg) : State :=
  s.setI (if s.cfg.quirks.fx55IncreasesI then s.I + BitVec.ofNat 16 (x.val + 1) else s.I)

/-- `for i in 0 .. x: V[i] <- MemRead(I + i, 1)` (R165). -/
def State.loadRegs (s : State) (x : Reg) : State :=
  (regsUpTo x).foldl (fun t r => t.setV r (t.readByte (t.I.toNat + r.val))) s

/-- `Fx55` (R164). -/
def execStore (x : Reg) (s : State) : Answer :=
  .next (s.access s.I.toNat (x.val + 1) (.store x)
    (fun t => (t.writeBytes t.I.toNat ((regsUpTo x).map t.getV)).advanceIndex x))

/-- `Fx65` (R165). -/
def execLoad (x : Reg) (s : State) : Answer :=
  .next (s.access s.I.toNat (x.val + 1) (.load x) (fun t => (t.loadRegs x).advanceIndex x))

end Sys2Proof.Machine
end

