-- ==== Sys2Proof/Machine/Keys.lean ====
section
/-! DEFINITION. Keypad scan, key wait and timer access (spec/45_keys_timers.md): `Ex9E`, `ExA1`, `Fx07`, `Fx0A`, `Fx15` and `Fx18`. -/

namespace Sys2Proof.Machine

/-- `Ex9E` (R180). -/
def execSkp (x : Reg) (s : State) : Answer :=
  match s.keyNumber (s.getV x) with
  | some k => .next (s.skipIf (s.keyDown k))
  | none => .next (s.raise (.keyIndexOutOfRange (s.getV x)) (.skp x))

/-- `ExA1` (R181). -/
def execSknp (x : Reg) (s : State) : Answer :=
  match s.keyNumber (s.getV x) with
  | some k => .next (s.skipIf (!s.keyDown k))
  | none => .next (s.raise (.keyIndexOutOfRange (s.getV x)) (.sknp x))

/-- `Fx07`: the timer before this step's tick (R182). -/
def execLdFromDT (x : Reg) (s : State) : Answer := .next (s.setV x s.DT)

/-- `Fx0A`: a busy poll, which goes back to its own address while no key is down (R183). -/
def execWaitKey (x : Reg) (s : State) : Answer :=
  match s.lowestKeyDown with
  | some k => .next (s.setV x (BitVec.ofNat 8 k.val))
  | none => .next (s.setPc (s.pc - 2))

/-- `Fx15` (R184). -/
def execLdToDT (x : Reg) (s : State) : Answer := .next (s.setDT (s.getV x))

/-- `Fx18` (R185). -/
def execLdToST (x : Reg) (s : State) : Answer := .next (s.setST (s.getV x))

end Sys2Proof.Machine
end

