-- ==== Sys2Proof/Machine/Step.lean ====
section
/-! DEFINITION. One `step()` of the engine (R90, R93, R95, R203), and the placing of a word where the next step fetches it. -/

namespace Sys2Proof.Machine

/-- `step()` (R90): nothing on a halted engine (R32); else the fetch with its check (R203), the advance
of `pc` (R91), the execute phase of the decoded instruction or the report of an unknown word (R93), and
the timer tick unless a fatal fault ended the step (R95). -/
def step (s : State) : Host.Outcome State Fault Refusal :=
  match s.status with
  | .halted _ => .next s.quiet
  | .running =>
    match s.rangeFault s.pc.toNat 2 with
    | some a => .next (s.quiet.fetchFault a)
    | none =>
      match decode s.fetchWord with
      | .unknown w => .next (s.quiet.advance.reportUnknown w).endStep
      | .instr i =>
        match exec i s.quiet.advance with
        | .next t => .next t.endStep
        | .fault r => .fault r
        | .refused r => .refused r

/-- The state with the instruction word `w` of `nbits` bits (the bits above are 0) stored big-endian at
`pc`, and running, which the fetch needs (R90); no action of the machine or the host (log 13). -/
def State.withFetchWord (s : State) (nbits w : Nat) : State :=
  let word : Word := BitVec.ofNat 16 (w % 2 ^ nbits)
  { s.writeBytes s.pc.toNat [firstByte word, secondByte word] with status := .running }

end Sys2Proof.Machine
end

