-- ==== Sys2Proof/Machine/Ports.lean ====
section
/-! DEFINITION. What the host may do, all of it between steps (R220): construct, load a program, move keys, clear the draw flag, read the framebuffer; and a run as a sequence of host actions and steps. -/

namespace Sys2Proof.Machine

/-- `new(quirks)` with its other parameters and its font table (R6, R230): the fields of `State.reset`
with `cfg`, and the font copied to 0x050 (R53). -/
def construct (cfg : Config) (font : List Byte) : State :=
  { State.reset with cfg := cfg }.writeBytes fontBase font

/-- The result of `load_program` (R232). `ProgramTooLarge` records the length of the image, as its row in the
table of section 1 of spec/60_exceptions.md says. -/
inductive LoadResult
  | ok (s : State)
  | programTooLarge (length : Nat)
  deriving DecidableEq, Repr

/-- `load_program(bytes)`: all of the image at 0x200, or an error with its length and no change (R232). -/
def State.loadProgram (s : State) (image : List Byte) : LoadResult :=
  if imageWf image then .ok (s.writeBytes progBase image) else .programTooLarge image.length

/-- Key down (`down = true`) or key up of a logical key (R28, R220, R221). -/
def State.setKey (s : State) (k : Key) (down : Bool) : State :=
  { s with keys := s.keys.set k.val down }

/-- The host "must clear the draw flag after consuming a frame" (R30, R220). -/
def State.clearDrawFlag (s : State) : State := { s with drawFlag := false }

/-- The framebuffer output port: one byte a pixel, values 0 and 1, row-major (R103, R223). -/
def State.framebufferPort (s : State) : Vector Byte 2048 :=
  Vector.ofFn (fun j : Fin 2048 =>
    if fbPixel s.fb ⟨j.val % 64, Nat.mod_lt _ (by decide)⟩
      ⟨j.val / 64, Nat.div_lt_of_lt_mul (Nat.lt_of_lt_of_eq j.isLt (by decide))⟩ then 1 else 0)

/-- The moves of the host that change the state (R220); its reads change nothing and it has no other move
(U16, U17 of spec/93_implementation_defined.md). -/
inductive HostAction
  | construct (cfg : Config) (font : List Byte)
  | loadProgram (image : List Byte)
  | setKey (k : Key) (down : Bool)
  | clearDrawFlag
  deriving DecidableEq, Repr

/-- The state after a host action; a program that is too large changes nothing (R232). -/
def hostAct (a : HostAction) (s : State) : State :=
  match a with
  | .construct cfg font => construct cfg font
  | .loadProgram image =>
    match s.loadProgram image with
    | .ok t => t
    | .programTooLarge _ => s
  | .setKey k down => s.setKey k down
  | .clearDrawFlag => s.clearDrawFlag

/-- A call the host makes: an action of its own, or `step()`. -/
inductive Event
  | host (a : HostAction)
  | step
  deriving DecidableEq, Repr

/-- The run of a sequence of calls, one after the other (R61, R96, R220). -/
def runEvents : List Event → State → Answer
  | [], s => .next s
  | .host a :: rest, s => runEvents rest (hostAct a s)
  | .step :: rest, s =>
    match step s with
    | .next t => runEvents rest t
    | .fault r => .fault r
    | .refused r => .refused r

end Sys2Proof.Machine
end

