-- ==== Sys2Proof/Safety.lean ====
section
/-! DEFINITION. The words the statements use: the invariant of the state, what an instruction leaves unchanged, and what counts as a run without a fatal fault. -/

namespace Sys2Proof.Machine

/-- The invariant of the state: memory is in canonical form, the call stack holds at most 16 entries
(R25), and a halted engine has no output (R32, R95). -/
structure State.Inv (s : State) : Prop where
  mem_wf : s.mem.wf
  stack_depth : s.stack.length ≤ 16
  halted_quiet : ∀ r, s.status = .halted r → s.out = .silent

/-- The parts of the state beside the registers V0 to VF and the bytes of memory. -/
inductive Part
  | I
  | pc
  | stack
  | DT
  | ST
  | keys
  | fb
  | drawFlag
  | status
  | cfg
  | out
  | draws
  deriving DecidableEq, Repr

/-- The part has the same value in both states. -/
def Part.same : Part → State → State → Prop
  | .I, s, t => t.I = s.I
  | .pc, s, t => t.pc = s.pc
  | .stack, s, t => t.stack = s.stack
  | .DT, s, t => t.DT = s.DT
  | .ST, s, t => t.ST = s.ST
  | .keys, s, t => t.keys = s.keys
  | .fb, s, t => t.fb = s.fb
  | .drawFlag, s, t => t.drawFlag = s.drawFlag
  | .status, s, t => t.status = s.status
  | .cfg, s, t => t.cfg = s.cfg
  | .out, s, t => t.out = s.out
  | .draws, s, t => t.draws = s.draws

/-- From `s` to `t` nothing changed but, perhaps, the registers `regs`, the bytes of memory at the
effective addresses `cells`, and the parts `parts` (R92). -/
structure OnlyChanges (regs : List Reg) (cells : List Nat) (parts : List Part) (s t : State) : Prop where
  regs_same : ∀ r, r ∉ regs → t.getV r = s.getV r
  bytes_same : ∀ a, ea a ∉ cells → t.readByte a = s.readByte a
  parts_same : ∀ p, p ∉ parts → p.same s t

/-- The effective addresses of `count` bytes from `base` on (R56, R57). -/
def cellsFrom (base count : Nat) : List Nat := (List.range count).map (fun k => ea (base + k))

/-- The registers the rule of an instruction writes, VF among them where it is a flag (R21, R130 to R145,
R101, R165, R182, R183). -/
def writtenRegs : Instr → List Reg
  | .ldImm x _ | .addImm x _ | .ldReg x _ | .orReg x _ | .andReg x _ | .xorReg x _ | .rnd x _ => [x]
  | .addReg x _ | .sub x _ | .shr x _ | .subn x _ | .shl x _ => [x, VF]
  | .drw _ _ _ => [VF]
  | .ldFromDT x | .waitKey x => [x]
  | .load x => (List.finRange 16).filter (fun r => r ≤ x)
  | .cls | .ret | .jp _ | .call _ | .seImm _ _ | .sneImm _ _ | .seReg _ _ | .sneReg _ _ | .ldI _ | .jpOff _ => []
  | .skp _ | .sknp _ | .ldToDT _ | .ldToST _ | .addI _ | .ldFont _ | .bcd _ | .store _ => []

/-- The effective addresses an instruction stores to (R61): only `Fx33` and `Fx55` store. -/
def storedCells (i : Instr) (s : State) : List Nat :=
  match i with
  | .bcd _ => cellsFrom s.I.toNat 3
  | .store x => cellsFrom s.I.toNat (x.val + 1)
  | .cls | .ret | .jp _ | .call _ | .seImm _ _ | .sneImm _ _ | .seReg _ _ | .sneReg _ _ | .ldI _ | .jpOff _ => []
  | .ldImm _ _ | .addImm _ _ | .ldReg _ _ | .orReg _ _ | .andReg _ _ | .xorReg _ _ | .rnd _ _ => []
  | .addReg _ _ | .sub _ _ | .shr _ _ | .subn _ _ | .shl _ _ | .drw _ _ _ => []
  | .skp _ | .sknp _ | .ldFromDT _ | .waitKey _ | .ldToDT _ | .ldToST _ | .addI _ | .ldFont _ | .load _ => []

/-- The other parts the rule of an instruction writes; the run status where it can raise a fatal fault. -/
def writtenParts : Instr → List Part
  | .cls => [.fb, .drawFlag]
  | .drw _ _ _ => [.fb, .drawFlag, .status]
  | .ret | .call _ => [.pc, .stack, .status]
  | .jp _ | .jpOff _ | .seImm _ _ | .sneImm _ _ | .seReg _ _ | .sneReg _ _ | .waitKey _ => [.pc]
  | .skp _ | .sknp _ => [.pc, .status]
  | .ldI _ | .addI _ | .ldFont _ => [.I]
  | .bcd _ => [.status]
  | .store _ | .load _ => [.I, .status]
  | .ldToDT _ => [.DT]
  | .ldToST _ => [.ST]
  | .rnd _ _ => [.draws]
  | .ldImm _ _ | .addImm _ _ | .ldReg _ _ | .orReg _ _ | .andReg _ _ | .xorReg _ _ => []
  | .addReg _ _ | .sub _ _ | .shr _ _ | .subn _ _ | .shl _ _ | .ldFromDT _ => []

/-- The sprite of `Dxyn` has a 1 bit that falls on the pixel in column `px` and row `py` (R101). -/
def SpriteCovers (s : State) (x y : Reg) (n : Height) (px : Fin 64) (py : Fin 32) : Prop :=
  ∃ row col : Nat, row < n.val ∧ col < 8 ∧ (s.readByte (s.I.toNat + row)).getLsbD (7 - col) = true ∧
    px.val = ((s.getV x).toNat + col) % 64 ∧ py.val = ((s.getV y).toNat + row) % 32

/-- The word with hex digit `op` and then the 12 bits of `nnn` (R71). -/
def wordNNN (op : Nat) (nnn : Addr12) : Word := BitVec.ofNat 16 (op * 0x1000 + nnn.toNat)

/-- The word with hex digits `op` and `x` and then the byte `kk` (R71). -/
def wordXKK (op : Nat) (x : Reg) (kk : Nat) : Word := BitVec.ofNat 16 (op * 0x1000 + x.val * 0x100 + kk)

/-- The word with the four hex digits `op`, `x`, `y`, `n` (R71). -/
def wordXYN (op : Nat) (x y : Reg) (n : Nat) : Word :=
  BitVec.ofNat 16 (op * 0x1000 + x.val * 0x100 + y.val * 0x10 + n)

/-- An access to `count` bytes from `base` on raises nothing: the policy is `wrap`, or no byte is
accessed, or every address lies inside memory (R56, R203). -/
def State.inRange (s : State) (base count : Nat) : Prop :=
  s.cfg.memOob = .wrap ∨ count = 0 ∨ base + count ≤ 4096

/-- `t` is `s` halted by a fault with this cause in the execute phase of an instruction with the word
`w`, and otherwise unchanged; the record's `A` is the fetch address, two below `pc` (R91, R95). -/
def HaltedBy (c : FatalCause) (w : Word) (s t : State) : Prop :=
  t.status = .halted { cause := c, A := s.pc - 2, w := some w } ∧ OnlyChanges [] [] [.status] s t

/-- A run of steps in which no fatal fault is raised: every one of the states after 1 to `k` steps is
running. A claim may take this as its premise (R95, D18). -/
def RunsWithoutFault : Nat → State → Prop
  | 0, s => s.status = .running
  | k + 1, s => s.status = .running ∧ ∃ t, step s = .next t ∧ RunsWithoutFault k t

/-- The step reports no UnknownOpcode. A claim may take this as its premise (R204). -/
def ReportsNothing (s : State) : Prop := ∃ t, step s = .next t ∧ t.out.diag = none

end Sys2Proof.Machine
end

