-- ==== Sys2Proof/Certificates/Slice0/Obligations.lean ====
section
/-! DEFINITION. The statements for the provers. Those about one instruction are about `exec`, on the state
of its execute phase, in which `pc` is the fetch address + 2 (R91); those about a step are about `step`. -/

open Sys2Proof Sys2Proof.Machine

/-! ### Encoding -/

/-- Decode of encode is the instruction, for all 34 instructions and every operand value (R76, R77). -/
def Obligations.DecodeOfEncodeIsTheInstruction : Prop :=
  ∀ i : Instr, decode (encode i) = .instr i ∧
    ∀ rest : List Byte, decodeBytes (encodeBytes i ++ rest) = .instr i rest

/-- Encode of decode is the word: no bit of a decoded word is dropped (R77). -/
def Obligations.EncodeOfDecodeIsTheWord : Prop :=
  ∀ (w : Word) (i : Instr), decode w = .instr i → encode i = w

/-- The decoder follows the 34 rows of R75: a word decodes to an instruction of a row exactly when it
matches the row's mask and match, and to UNKNOWN exactly when it matches no row. -/
def Obligations.DecodeFollowsTheOpcodeTable : Prop :=
  opcodeTable.length = 34 ∧
  (∀ (w : Word) (i : Instr), decode w = .instr i → i.row ∈ opcodeTable ∧ w &&& i.row.mask = i.row.value) ∧
  (∀ (w : Word) (r : OpcodeRow), r ∈ opcodeTable → w &&& r.mask = r.value →
    ∃ i, decode w = .instr i ∧ i.row = r) ∧
  (∀ w : Word, (∀ r ∈ opcodeTable, w &&& r.mask ≠ r.value) ↔ decode w = .unknown w)

/-- No two rows of R75 match one word (R74). -/
def Obligations.NoWordMatchesTwoRows : Prop :=
  ∀ (w : Word) (r r' : OpcodeRow), r ∈ opcodeTable → r' ∈ opcodeTable →
    w &&& r.mask = r.value → w &&& r'.mask = r'.value → r = r'

/-- The unknown space, written out as R78 lists it. -/
def Obligations.UnknownWordsAreTheListedOnes : Prop :=
  ∀ w : Word, decode w = .unknown w ↔
    (w.toNat ≤ 0x0FFF ∧ w ≠ 0x00E0 ∧ w ≠ 0x00EE) ∨
    (w.toNat / 0x1000 = 0x5 ∧ w.toNat % 0x10 ≠ 0) ∨
    (w.toNat / 0x1000 = 0x8 ∧ w.toNat % 0x10 ∈ [0x8, 0x9, 0xA, 0xB, 0xC, 0xD, 0xF]) ∨
    (w.toNat / 0x1000 = 0x9 ∧ w.toNat % 0x10 ≠ 0) ∨
    (w.toNat / 0x1000 = 0xE ∧ w.toNat % 0x100 ∉ [0x9E, 0xA1]) ∨
    (w.toNat / 0x1000 = 0xF ∧
      w.toNat % 0x100 ∉ [0x07, 0x0A, 0x15, 0x18, 0x1E, 0x29, 0x33, 0x55, 0x65])

/-- A word of every family of R73 (every highest nibble), written out from the patterns of R75, and a word of
the unknown space. -/
def Obligations.WordsOfEveryFamilyDecode : Prop :=
  decode 0x00E0 = .instr .cls ∧ decode 0x00EE = .instr .ret ∧ decode 0x1208 = .instr (.jp 0x208) ∧
  decode 0x2210 = .instr (.call 0x210) ∧ decode 0x3105 = .instr (.seImm 1 0x05) ∧
  decode 0x4207 = .instr (.sneImm 2 0x07) ∧ decode 0x5340 = .instr (.seReg 3 4) ∧
  decode 0x6A42 = .instr (.ldImm 0xA 0x42) ∧ decode 0x7B02 = .instr (.addImm 0xB 0x02) ∧
  decode 0x812E = .instr (.shl 1 2) ∧ decode 0x9340 = .instr (.sneReg 3 4) ∧
  decode 0xA300 = .instr (.ldI 0x300) ∧ decode 0xB220 = .instr (.jpOff 0x220) ∧
  decode 0xC30F = .instr (.rnd 3 0x0F) ∧ decode 0xD125 = .instr (.drw 1 2 5) ∧ decode 0xE1A1 = .instr (.sknp 1) ∧
  decode 0xFF65 = .instr (.load 0xF) ∧ decode 0x0AE0 = .unknown 0x0AE0

/-! ### Loads, logic and arithmetic -/

/-- `6xkk` and `7xkk` (R130, R131): the new value of Vx, no flag, nothing else changed. -/
def Obligations.LoadAndAddImmediate : Prop :=
  ∀ (x : Reg) (kk : Byte),
    decode (wordXKK 0x6 x kk.toNat) = .instr (.ldImm x kk) ∧
    decode (wordXKK 0x7 x kk.toNat) = .instr (.addImm x kk) ∧
    ∀ s : State,
      (∃ t, exec (.ldImm x kk) s = .next t ∧ t.getV x = kk ∧ OnlyChanges [x] [] [] s t) ∧
      (∃ t, exec (.addImm x kk) s = .next t ∧
        (t.getV x).toNat = ((s.getV x).toNat + kk.toNat) % 0x100 ∧ OnlyChanges [x] [] [] s t)

/-- `8xy0` to `8xy3` (R132 to R135): the new value of Vx, VF not reset, nothing else changed. -/
def Obligations.RegisterMoveAndLogic : Prop :=
  ∀ x y : Reg,
    decode (wordXYN 0x8 x y 0x0) = .instr (.ldReg x y) ∧
    decode (wordXYN 0x8 x y 0x1) = .instr (.orReg x y) ∧
    decode (wordXYN 0x8 x y 0x2) = .instr (.andReg x y) ∧
    decode (wordXYN 0x8 x y 0x3) = .instr (.xorReg x y) ∧
    ∀ s : State,
      (∃ t, exec (.ldReg x y) s = .next t ∧ t.getV x = s.getV y ∧ OnlyChanges [x] [] [] s t) ∧
      (∃ t, exec (.orReg x y) s = .next t ∧ OnlyChanges [x] [] [] s t ∧
        ∀ b, (t.getV x).getLsbD b = ((s.getV x).getLsbD b || (s.getV y).getLsbD b)) ∧
      (∃ t, exec (.andReg x y) s = .next t ∧ OnlyChanges [x] [] [] s t ∧
        ∀ b, (t.getV x).getLsbD b = ((s.getV x).getLsbD b && (s.getV y).getLsbD b)) ∧
      (∃ t, exec (.xorReg x y) s = .next t ∧ OnlyChanges [x] [] [] s t ∧
        ∀ b, (t.getV x).getLsbD b = ((s.getV x).getLsbD b ^^ (s.getV y).getLsbD b))

/-- `8xy4` (R138): VF is the carry, written last; Vx is the sum unless x = F; the same in both alias modes. -/
def Obligations.AddRegistersWithCarry : Prop :=
  ∀ x y : Reg, decode (wordXYN 0x8 x y 0x4) = .instr (.addReg x y) ∧
    ∀ s : State, ∃ t, exec (.addReg x y) s = .next t ∧ OnlyChanges [x, VF] [] [] s t ∧
      (t.getV VF).toNat = (if (s.getV x).toNat + (s.getV y).toNat > 0xFF then 1 else 0) ∧
      (x ≠ VF → (t.getV x).toNat = ((s.getV x).toNat + (s.getV y).toNat) % 0x100)

/-- `8xy5` (R139), in both alias modes and with VF as any operand: the flag is Vx > Vy, strictly, of the old
values; the difference reads VF's new value under `sequential` and the old values under `latched`. -/
def Obligations.SubtractWithNoBorrowFlag : Prop :=
  ∀ x y : Reg, decode (wordXYN 0x8 x y 0x5) = .instr (.sub x y) ∧
    ∀ (s : State) (a b f : Nat), a = (s.getV x).toNat → b = (s.getV y).toNat →
      f = (if a > b then 1 else 0) →
      ∃ t, exec (.sub x y) s = .next t ∧ OnlyChanges [x, VF] [] [] s t ∧
        (x ≠ VF → (t.getV VF).toNat = f) ∧
        (s.cfg.aluAlias = .latched → (t.getV x).toNat = (a + 0x100 - b) % 0x100) ∧
        (s.cfg.aluAlias = .sequential → (t.getV x).toNat =
          ((if x = VF then f else a) + 0x100 - (if y = VF then f else b)) % 0x100)

/-- `8xy7` (R141), as `8xy5` with the operands exchanged: the flag is Vy > Vx, strictly. -/
def Obligations.SubtractReversedWithNoBorrowFlag : Prop :=
  ∀ x y : Reg, decode (wordXYN 0x8 x y 0x7) = .instr (.subn x y) ∧
    ∀ (s : State) (a b f : Nat), a = (s.getV x).toNat → b = (s.getV y).toNat →
      f = (if b > a then 1 else 0) →
      ∃ t, exec (.subn x y) s = .next t ∧ OnlyChanges [x, VF] [] [] s t ∧
        (x ≠ VF → (t.getV VF).toNat = f) ∧
        (s.cfg.aluAlias = .latched → (t.getV x).toNat = (b + 0x100 - a) % 0x100) ∧
        (s.cfg.aluAlias = .sequential → (t.getV x).toNat =
          ((if y = VF then f else b) + 0x100 - (if x = VF then f else a)) % 0x100)

/-- `8xy6` (R140), for both settings of the quirk and both alias modes: the source `src` is y under the
quirk and x otherwise, VF is its bit 0, and the half is taken of VF's new value under `sequential` when
the source is VF. -/
def Obligations.ShiftRightByOne : Prop :=
  ∀ x y : Reg, decode (wordXYN 0x8 x y 0x6) = .instr (.shr x y) ∧
    ∀ (s : State) (src : Reg) (a : Nat), src = (if s.cfg.quirks.shiftUsesVy then y else x) →
      a = (s.getV src).toNat →
      ∃ t, exec (.shr x y) s = .next t ∧ OnlyChanges [x, VF] [] [] s t ∧
        (x ≠ VF → (t.getV VF).toNat = a % 2) ∧
        (s.cfg.aluAlias = .latched → (t.getV x).toNat = a / 2) ∧
        (s.cfg.aluAlias = .sequential → (t.getV x).toNat = (if src = VF then a % 2 else a) / 2)

/-- `8xyE` (R142), as `8xy6` to the left: VF is bit 7 of the source. -/
def Obligations.ShiftLeftByOne : Prop :=
  ∀ x y : Reg, decode (wordXYN 0x8 x y 0xE) = .instr (.shl x y) ∧
    ∀ (s : State) (src : Reg) (a : Nat), src = (if s.cfg.quirks.shiftUsesVy then y else x) →
      a = (s.getV src).toNat →
      ∃ t, exec (.shl x y) s = .next t ∧ OnlyChanges [x, VF] [] [] s t ∧
        (x ≠ VF → (t.getV VF).toNat = a / 0x80) ∧
        (s.cfg.aluAlias = .latched → (t.getV x).toNat = a * 2 % 0x100) ∧
        (s.cfg.aluAlias = .sequential → (t.getV x).toNat = (if src = VF then a / 0x80 else a) * 2 % 0x100)

/-- `Cxkk` (R145): one draw, masked by kk, so that a bit that kk has 0 is 0. That the byte is the free value
`Config.freeRandomByte` of a counter of draws is the model's own form for it (log 5). -/
def Obligations.RandomByteIsMasked : Prop :=
  ∀ (x : Reg) (kk : Byte), decode (wordXKK 0xC x kk.toNat) = .instr (.rnd x kk) ∧
    ∀ s : State, ∃ t, exec (.rnd x kk) s = .next t ∧ OnlyChanges [x] [] [.draws] s t ∧
      t.draws = s.draws + 1 ∧ (t.getV x = Config.freeRandomByte s.draws &&& kk) ∧
      ∀ b, kk.getLsbD b = false → (t.getV x).getLsbD b = false

/-! ### Control transfer -/

/-- `1nnn` (R111). -/
def Obligations.JumpLoadsThePc : Prop :=
  ∀ nnn : Addr12, decode (wordNNN 0x1 nnn) = .instr (.jp nnn) ∧
    ∀ s : State, ∃ t, exec (.jp nnn) s = .next t ∧ t.pc.toNat = nnn.toNat ∧ OnlyChanges [] [] [.pc] s t

/-- `2nnn` (R112) with room on the stack: the advanced pc is pushed. The depth of 16 is the spec's decision
D5; that the entry pushed last stands first in the list is the model's form (log 11). -/
def Obligations.CallPushesTheReturnAddress : Prop :=
  ∀ nnn : Addr12, decode (wordNNN 0x2 nnn) = .instr (.call nnn) ∧
    ∀ s : State, s.stack.length < 16 → ∃ t, exec (.call nnn) s = .next t ∧
      t.stack = s.pc :: s.stack ∧ t.pc.toNat = nnn.toNat ∧ OnlyChanges [] [] [.pc, .stack] s t

/-- `2nnn` with 16 entries held halts the engine (R112, R201, the spec's decision D5); what else holds of the
halted state is the model's reading (log 3). -/
def Obligations.CallOnAFullStackHalts : Prop :=
  ∀ (nnn : Addr12) (s : State), s.stack.length = 16 →
    ∃ t, exec (.call nnn) s = .next t ∧ HaltedBy .stackOverflow (wordNNN 0x2 nnn) s t

/-- `00EE` (R110): the popped value is the new pc as it stands; on an empty stack StackUnderflow is raised. -/
def Obligations.ReturnPopsThePc : Prop :=
  decode 0x00EE = .instr .ret ∧
  (∀ (s : State) (v : Word) (rest : List Word), s.stack = v :: rest →
    ∃ t, exec .ret s = .next t ∧ t.pc = v ∧ t.stack = rest ∧ OnlyChanges [] [] [.pc, .stack] s t) ∧
  (∀ s : State, s.stack = [] → ∃ t r, exec .ret s = .next t ∧ t.status = .halted r ∧ r.cause = .stackUnderflow)

/-- A step that fetches `00EE` with an empty stack (R200): halted, the record holds A and 0x00EE, no timer
tick, no beep. -/
def Obligations.ReturnOnAnEmptyStackEndsTheStep : Prop :=
  ∀ s : State, s.status = .running → s.inRange s.pc.toNat 2 → s.fetchWord = 0x00EE → s.stack = [] →
    ∃ t r, step s = .next t ∧ t.status = .halted r ∧ r.cause = .stackUnderflow ∧ r.A = s.pc ∧
      r.w = some 0x00EE ∧ t.DT = s.DT ∧ t.ST = s.ST ∧ t.out.beep = false

/-- `3xkk` and `4xkk` (R113, R114): a skip is 2 more bytes, mod 2^16. -/
def Obligations.SkipsOnAnImmediate : Prop :=
  ∀ (x : Reg) (kk : Byte),
    decode (wordXKK 0x3 x kk.toNat) = .instr (.seImm x kk) ∧
    decode (wordXKK 0x4 x kk.toNat) = .instr (.sneImm x kk) ∧
    ∀ s : State,
      (∃ t, exec (.seImm x kk) s = .next t ∧ OnlyChanges [] [] [.pc] s t ∧
        t.pc.toNat = (s.pc.toNat + (if s.getV x = kk then 2 else 0)) % 0x10000) ∧
      (∃ t, exec (.sneImm x kk) s = .next t ∧ OnlyChanges [] [] [.pc] s t ∧
        t.pc.toNat = (s.pc.toNat + (if s.getV x = kk then 0 else 2)) % 0x10000)

/-- `5xy0` and `9xy0` (R115, R116). -/
def Obligations.SkipsOnRegisters : Prop :=
  ∀ x y : Reg,
    decode (wordXYN 0x5 x y 0) = .instr (.seReg x y) ∧ decode (wordXYN 0x9 x y 0) = .instr (.sneReg x y) ∧
    (∀ n, 0 < n → n < 16 → decode (wordXYN 0x5 x y n) = .unknown (wordXYN 0x5 x y n) ∧
      decode (wordXYN 0x9 x y n) = .unknown (wordXYN 0x9 x y n)) ∧
    ∀ s : State,
      (∃ t, exec (.seReg x y) s = .next t ∧ OnlyChanges [] [] [.pc] s t ∧
        t.pc.toNat = (s.pc.toNat + (if s.getV x = s.getV y then 2 else 0)) % 0x10000) ∧
      (∃ t, exec (.sneReg x y) s = .next t ∧ OnlyChanges [] [] [.pc] s t ∧
        t.pc.toNat = (s.pc.toNat + (if s.getV x = s.getV y then 0 else 2)) % 0x10000)

/-- `Bnnn` (R117) for both settings of the quirk; the register is V0, or the one of the top nibble of nnn.
The target is kept unreduced (the spec's decision D3). -/
def Obligations.JumpWithOffset : Prop :=
  ∀ nnn : Addr12, decode (wordNNN 0xB nnn) = .instr (.jpOff nnn) ∧
    ∀ (s : State) (r : Reg), r.val = (if s.cfg.quirks.bnnnUsesVx then nnn.toNat / 0x100 else 0) →
      ∃ t, exec (.jpOff nnn) s = .next t ∧ t.pc.toNat = nnn.toNat + (s.getV r).toNat ∧
        OnlyChanges [] [] [.pc] s t

/-! ### The index register and memory transfer -/

/-- `Annn` (R160). -/
def Obligations.LoadIndexImmediate : Prop :=
  ∀ nnn : Addr12, decode (wordNNN 0xA nnn) = .instr (.ldI nnn) ∧
    ∀ s : State, ∃ t, exec (.ldI nnn) s = .next t ∧ t.I.toNat = nnn.toNat ∧ OnlyChanges [] [] [.I] s t

/-- `Fx1E` (R161): 16-bit wraparound, stored unreduced (the spec's decision D24), VF not written. -/
def Obligations.AddRegisterToIndex : Prop :=
  ∀ x : Reg, decode (wordXKK 0xF x 0x1E) = .instr (.addI x) ∧
    ∀ s : State, ∃ t, exec (.addI x) s = .next t ∧
      t.I.toNat = (s.I.toNat + (s.getV x).toNat) % 0x10000 ∧ OnlyChanges [] [] [.I] s t

/-- `Fx29` (R162) for both values of `FX29_BASE` (the spec's decision D13): Vx is not masked. -/
def Obligations.PointIndexAtGlyph : Prop :=
  ∀ x : Reg, decode (wordXKK 0xF x 0x29) = .instr (.ldFont x) ∧
    ∀ s : State, ∃ t, exec (.ldFont x) s = .next t ∧ OnlyChanges [] [] [.I] s t ∧
      (s.cfg.fx29Base = .at000 → t.I.toNat = (s.getV x).toNat * 5) ∧
      (s.cfg.fx29Base = .at050 → t.I.toNat = 0x050 + (s.getV x).toNat * 5)

/-- `Fx33` (R163): the three digits, `I` unchanged; under `MEM_OOB_POLICY = fault` AddressOutOfRange when
I + 2 ≥ 4096. Memory in canonical form is the model's invariant. -/
def Obligations.StoreDecimalDigits : Prop :=
  ∀ x : Reg, decode (wordXKK 0xF x 0x33) = .instr (.bcd x) ∧
    ∀ s : State, s.mem.wf →
      ((s.cfg.memOob = .wrap ∨ s.I.toNat + 2 < 4096) →
        ∃ t, exec (.bcd x) s = .next t ∧
          (t.readByte s.I.toNat).toNat = (s.getV x).toNat / 100 ∧
          (t.readByte (s.I.toNat + 1)).toNat = (s.getV x).toNat / 10 % 10 ∧
          (t.readByte (s.I.toNat + 2)).toNat = (s.getV x).toNat % 10 ∧
          OnlyChanges [] (cellsFrom s.I.toNat 3) [] s t) ∧
      ((s.cfg.memOob = .fault ∧ 4096 ≤ s.I.toNat + 2) →
        ∃ t r a, exec (.bcd x) s = .next t ∧ t.status = .halted r ∧ r.cause = .addressOutOfRange a)

/-- `Fx55` (R164): V0 to Vx stored from I on, then the quirk's advance of I; under `MEM_OOB_POLICY = fault`
AddressOutOfRange when I + x ≥ 4096, before any byte is written. -/
def Obligations.StoreRegisters : Prop :=
  ∀ x : Reg, decode (wordXKK 0xF x 0x55) = .instr (.store x) ∧
    ∀ s : State, s.mem.wf →
      ((s.cfg.memOob = .wrap ∨ s.I.toNat + x.val < 4096) →
        ∃ t, exec (.store x) s = .next t ∧
          (∀ r : Reg, r ≤ x → t.readByte (s.I.toNat + r.val) = s.getV r) ∧
          t.I.toNat = (if s.cfg.quirks.fx55IncreasesI then (s.I.toNat + x.val + 1) % 0x10000 else s.I.toNat) ∧
          OnlyChanges [] (cellsFrom s.I.toNat (x.val + 1)) [.I] s t) ∧
      ((s.cfg.memOob = .fault ∧ 4096 ≤ s.I.toNat + x.val) →
        ∃ t r a, exec (.store x) s = .next t ∧ t.status = .halted r ∧ r.cause = .addressOutOfRange a ∧
          ∀ b, t.readByte b = s.readByte b)

/-- `Fx65` (R165): V0 to Vx loaded from I on, the registers above Vx unchanged, then the quirk's advance of I;
under `MEM_OOB_POLICY = fault` AddressOutOfRange when I + x ≥ 4096, before any register is written. -/
def Obligations.LoadRegisters : Prop :=
  ∀ x : Reg, decode (wordXKK 0xF x 0x65) = .instr (.load x) ∧
    ∀ s : State,
      ((s.cfg.memOob = .wrap ∨ s.I.toNat + x.val < 4096) →
        ∃ t, exec (.load x) s = .next t ∧
          (∀ r : Reg, r ≤ x → t.getV r = s.readByte (s.I.toNat + r.val)) ∧
          (∀ r : Reg, x < r → t.getV r = s.getV r) ∧
          t.I.toNat = (if s.cfg.quirks.fx55IncreasesI then (s.I.toNat + x.val + 1) % 0x10000 else s.I.toNat) ∧
          OnlyChanges ((List.finRange 16).filter (fun r => r ≤ x)) [] [.I] s t) ∧
      ((s.cfg.memOob = .fault ∧ 4096 ≤ s.I.toNat + x.val) →
        ∃ t r a, exec (.load x) s = .next t ∧ t.status = .halted r ∧ r.cause = .addressOutOfRange a ∧
          ∀ q, t.getV q = s.getV q)

/-- The round trip of section 8 of the source (vector S7): what `Fx55` stored, `Fx65` with the same I and x
loads back, whatever the registers held in between and whatever the quirk. -/
def Obligations.StoredRegistersAreLoadedBack : Prop :=
  ∀ (x : Reg) (s t u : State), s.mem.wf → s.inRange s.I.toNat (x.val + 1) → exec (.store x) s = .next t →
    u.mem = t.mem → u.I = s.I → u.cfg = s.cfg →
    ∃ v, exec (.load x) u = .next v ∧ ∀ r : Reg, r ≤ x → v.getV r = s.getV r

/-- AddressOutOfRange (R203, the alternative of the spec's decision D2): under `MEM_OOB_POLICY = fault` an
access that leaves memory halts the engine with no partial effect, and the record holds the first
out-of-range address (DEDUCED, log 10). -/
def Obligations.OutOfRangeAccessHaltsWithNoEffect : Prop :=
  ∀ (s : State) (x y : Reg) (n : Height), s.cfg.memOob = .fault →
    (0 < n.val → 4096 ≤ s.I.toNat + n.val - 1 → ∃ t, exec (.drw x y n) s = .next t ∧
      HaltedBy (.addressOutOfRange (max s.I.toNat 4096)) (wordXYN 0xD x y n.val) s t) ∧
    (4096 ≤ s.I.toNat + 2 → ∃ t, exec (.bcd x) s = .next t ∧
      HaltedBy (.addressOutOfRange (max s.I.toNat 4096)) (wordXKK 0xF x 0x33) s t) ∧
    (4096 ≤ s.I.toNat + x.val → ∃ t, exec (.store x) s = .next t ∧
      HaltedBy (.addressOutOfRange (max s.I.toNat 4096)) (wordXKK 0xF x 0x55) s t) ∧
    (4096 ≤ s.I.toNat + x.val → ∃ t, exec (.load x) s = .next t ∧
      HaltedBy (.addressOutOfRange (max s.I.toNat 4096)) (wordXKK 0xF x 0x65) s t)

/-! ### The display -/

/-- `00E0` (R100): every pixel 0, the draw flag set, VF and all else unchanged. -/
def Obligations.ClearScreen : Prop :=
  decode 0x00E0 = .instr .cls ∧
  ∀ s : State, ∃ t, exec .cls s = .next t ∧ (∀ px py, fbPixel t.fb px py = false) ∧ t.drawFlag = true ∧
    OnlyChanges [] [] [.fb, .drawFlag] s t

/-- `Dxyn` (R101), for every pixel: it is flipped exactly when a 1 bit of the sprite falls on it (columns mod
64, rows mod 32), VF is 1 exactly when such a pixel was set, the draw flag is set, `I` and memory are
unchanged. That the coordinates are read before VF is cleared is the spec's decision D8. -/
def Obligations.DrawSpriteXorsAndReportsCollision : Prop :=
  ∀ (x y : Reg) (n : Height), decode (wordXYN 0xD x y n.val) = .instr (.drw x y n) ∧
    ∀ s : State, s.inRange s.I.toNat n.val → ∃ t, exec (.drw x y n) s = .next t ∧
      (∀ px py, SpriteCovers s x y n px py → fbPixel t.fb px py = !fbPixel s.fb px py) ∧
      (∀ px py, ¬ SpriteCovers s x y n px py → fbPixel t.fb px py = fbPixel s.fb px py) ∧
      ((∃ px py, SpriteCovers s x y n px py ∧ fbPixel s.fb px py = true) → t.getV VF = 1) ∧
      ((∀ px py, SpriteCovers s x y n px py → fbPixel s.fb px py = false) → t.getV VF = 0) ∧
      t.drawFlag = true ∧ OnlyChanges [VF] [] [.fb, .drawFlag] s t

/-- Drawing the same sprite twice at the same place restores the framebuffer (R101, a corner case the spec
derives, for x and y other than F). VF is 1 on the second draw exactly when a 1 bit of the sprite fell on a
pixel that was 0 before the first (log 17). -/
def Obligations.DrawingTwiceRestoresTheFramebuffer : Prop :=
  ∀ (x y : Reg) (n : Height) (s : State), x ≠ VF → y ≠ VF → s.inRange s.I.toNat n.val →
    ∃ t u, exec (.drw x y n) s = .next t ∧ exec (.drw x y n) t = .next u ∧ u.fb = s.fb ∧
      (u.getV VF = 1 ∨ u.getV VF = 0) ∧
      (u.getV VF = 1 ↔ ∃ px py, SpriteCovers s x y n px py ∧ fbPixel s.fb px py = false)

/-- The framebuffer and the draw flag have two writers, `00E0` and `Dxyn` (R102): any other decoded
instruction leaves both as they are; a completed `00E0` or `Dxyn` sets the flag; no instruction clears it. -/
def Obligations.OnlyClearAndDrawWriteTheDisplay : Prop :=
  ∀ (i : Instr) (s t : State), exec i s = .next t →
    ((i ≠ .cls ∧ ∀ x y n, i ≠ .drw x y n) → t.fb = s.fb ∧ t.drawFlag = s.drawFlag) ∧
    (i = .cls → t.drawFlag = true) ∧
    (∀ x y n, i = .drw x y n → s.inRange s.I.toNat n.val → t.drawFlag = true) ∧
    (s.drawFlag = true → t.drawFlag = true)

/-! ### Keys and timers -/

/-- `Ex9E` and `ExA1` (R180, R181) on a key number in range, and on any number under
`KEY_INDEX_POLICY = mask` (the spec's decision D6 and its alternative). -/
def Obligations.SkipsOnAKey : Prop :=
  ∀ x : Reg, decode (wordXKK 0xE x 0x9E) = .instr (.skp x) ∧ decode (wordXKK 0xE x 0xA1) = .instr (.sknp x) ∧
    ∀ (s : State) (k : Key),
      ((s.getV x).toNat = k.val ∨ (s.cfg.keyIndex = .mask ∧ (s.getV x).toNat % 16 = k.val)) →
      (∃ t, exec (.skp x) s = .next t ∧ OnlyChanges [] [] [.pc] s t ∧
        t.pc.toNat = (s.pc.toNat + (if s.keyDown k then 2 else 0)) % 0x10000) ∧
      (∃ t, exec (.sknp x) s = .next t ∧ OnlyChanges [] [] [.pc] s t ∧
        t.pc.toNat = (s.pc.toNat + (if s.keyDown k then 0 else 2)) % 0x10000)

/-- `Ex9E` and `ExA1` with V[x] above 15 under `KEY_INDEX_POLICY = fault` halt the engine, and the record
holds V[x] (R202, the spec's decision D6); what else holds of the halted state is log 3. -/
def Obligations.KeyNumberOutOfRangeHalts : Prop :=
  ∀ (x : Reg) (s : State), s.cfg.keyIndex = .fault → 15 < (s.getV x).toNat →
    (∃ t, exec (.skp x) s = .next t ∧ HaltedBy (.keyIndexOutOfRange (s.getV x)) (wordXKK 0xE x 0x9E) s t) ∧
    (∃ t, exec (.sknp x) s = .next t ∧ HaltedBy (.keyIndexOutOfRange (s.getV x)) (wordXKK 0xE x 0xA1) s t)

/-- `Fx07`, `Fx15` and `Fx18` (R182, R184, R185): the execute phase. -/
def Obligations.TimersAreReadAndSet : Prop :=
  ∀ x : Reg,
    decode (wordXKK 0xF x 0x07) = .instr (.ldFromDT x) ∧ decode (wordXKK 0xF x 0x15) = .instr (.ldToDT x) ∧
    decode (wordXKK 0xF x 0x18) = .instr (.ldToST x) ∧
    ∀ s : State,
      (∃ t, exec (.ldFromDT x) s = .next t ∧ t.getV x = s.DT ∧ OnlyChanges [x] [] [] s t) ∧
      (∃ t, exec (.ldToDT x) s = .next t ∧ t.DT = s.getV x ∧ OnlyChanges [] [] [.DT] s t) ∧
      (∃ t, exec (.ldToST x) s = .next t ∧ t.ST = s.getV x ∧ OnlyChanges [] [] [.ST] s t)

/-- The timers with the tick of the same step (R182, R184, R185; the corner cases the spec derives from R90 and
R210): `Fx07` reads DT before the tick; after `Fx15`, DT is Vx - 1 and the next `Fx07` reads that; after
`Fx18`, the tick of this step (k = 0) or of the k-th step after it beeps exactly when Vx is k + 1. -/
def Obligations.TimerWritesTickInTheSameStep : Prop :=
  ∀ (x y : Reg) (s : State),
    (∃ t, exec (.ldFromDT x) s = .next t ∧ t.getV x = s.DT ∧ t.timerTick.DT.toNat = s.DT.toNat - 1) ∧
    (∃ t u, exec (.ldToDT x) s = .next t ∧ t.timerTick.DT.toNat = (s.getV x).toNat - 1 ∧
      exec (.ldFromDT y) t.timerTick.quiet.advance = .next u ∧ (u.getV y).toNat = (s.getV x).toNat - 1) ∧
    (∃ t, exec (.ldToST x) s = .next t ∧ ∀ k : Nat,
      (Nat.iterate State.timerTick k t.timerTick).ST.toNat = (s.getV x).toNat - (k + 1) ∧
      ((Nat.iterate State.timerTick k t.timerTick).out.beep = true ↔ (s.getV x).toNat = k + 1))

/-- `Fx0A` (R183): the lowest key down, or back to its own address. -/
def Obligations.WaitForAKey : Prop :=
  ∀ x : Reg, decode (wordXKK 0xF x 0x0A) = .instr (.waitKey x) ∧
    ∀ s : State,
      ((∀ k, s.keyDown k = false) → ∃ t, exec (.waitKey x) s = .next t ∧ OnlyChanges [] [] [.pc] s t ∧
        t.pc.toNat = (s.pc.toNat + 0x10000 - 2) % 0x10000) ∧
      (∀ k, s.keyDown k = true → (∀ j, j < k → s.keyDown j = false) →
        ∃ t, exec (.waitKey x) s = .next t ∧ (t.getV x).toNat = k.val ∧ OnlyChanges [x] [] [] s t)

/-! ### The step -/

/-- The fetched word (R58): big-endian, each of the two addresses reduced mod 4096. -/
def Obligations.FetchIsBigEndian : Prop :=
  ∀ s : State, s.fetchWord.toNat =
    (s.mem.read (s.pc.toNat % 4096)).toNat * 0x100 + (s.mem.read ((s.pc.toNat + 1) % 4096)).toNat

/-- `step()` is R90's sequence: nothing on a halted engine, but that the output field is set silent, which is
the model's choice (log 4); else the decoded instruction is executed with pc advanced by 2 and no output so far,
and the timers tick unless a fatal fault ended the step; an unknown word is reported and the timers tick. (The
fetch check of `MEM_OOB_POLICY = fault` is the premise `inRange`; under `wrap` it always holds.) -/
def Obligations.StepRunsTheDecodedInstruction : Prop :=
  ∀ s : State,
    (∀ r, s.status = .halted r → step s = .next { s with out := .silent }) ∧
    (s.status = .running → s.inRange s.pc.toNat 2 →
      (∀ i u, decode s.fetchWord = .instr i → exec i { s with out := .silent, pc := s.pc + 2 } = .next u →
        step s = .next (if u.status = .running then u.timerTick else u)) ∧
      (∀ w, decode s.fetchWord = .unknown w →
        step s = .next (State.timerTick
          { s with out := { beep := false, diag := some { A := s.pc, w := w } }, pc := s.pc + 2 })))

/-- A step that fetches a word of the unknown space (R93): pc moves on, the word is reported, the timers tick,
and nothing else changes. -/
def Obligations.UnknownWordIsAReportedNoOp : Prop :=
  ∀ s : State, s.status = .running → s.inRange s.pc.toNat 2 → decode s.fetchWord = .unknown s.fetchWord →
    ∃ t d, step s = .next t ∧ t.out.diag = some d ∧ d.w = s.fetchWord ∧
      t.pc.toNat = (s.pc.toNat + 2) % 0x10000 ∧
      t.DT.toNat = s.DT.toNat - 1 ∧ t.ST.toNat = s.ST.toNat - 1 ∧ (t.out.beep = true ↔ s.ST = 1) ∧
      OnlyChanges [] [] [.pc, .DT, .ST, .out] s t

/-- The timer tick (R210): both timers count down and stop at 0, the beep edge is ST = 1 before the decrement,
nothing else changes; every completed step ends with it, and a step ended by a fatal fault does not tick. -/
def Obligations.EveryCompletedStepTicks : Prop :=
  (∀ s : State, s.timerTick.DT.toNat = s.DT.toNat - 1 ∧ s.timerTick.ST.toNat = s.ST.toNat - 1 ∧
    (s.timerTick.out.beep = true ↔ s.ST = 1) ∧ s.timerTick.out.diag = s.out.diag ∧
    OnlyChanges [] [] [.DT, .ST, .out] s s.timerTick) ∧
  (∀ (s u : State) (i : Instr), s.status = .running → s.inRange s.pc.toNat 2 →
    decode s.fetchWord = .instr i → exec i s.quiet.advance = .next u →
    (u.status = .running → step s = .next u.timerTick) ∧
    (∀ r, u.status = .halted r → step s = .next u ∧ u.DT = s.DT ∧ u.ST = s.ST ∧ u.out.beep = false)) ∧
  (∀ (s : State) (w : Word), s.status = .running → s.inRange s.pc.toNat 2 →
    decode s.fetchWord = .unknown w → step s = .next (s.quiet.advance.reportUnknown w).timerTick)

/-- A fetch at pc ≥ 4095 under `MEM_OOB_POLICY = fault` (R203, the alternative of the spec's decision D2):
halted, pc not advanced, no tick, no output. That the record has no word is the model's reading (log 8). -/
def Obligations.FetchOutOfRangeHalts : Prop :=
  ∀ s : State, s.status = .running → s.cfg.memOob = .fault → 4095 ≤ s.pc.toNat →
    ∃ t, step s = .next t ∧
      t.status = .halted { cause := .addressOutOfRange (max s.pc.toNat 4096), A := s.pc, w := none } ∧
      t.out = .silent ∧ OnlyChanges [] [] [.status, .out] s t

/-- Every instruction and every step answers a next state: the engine has an effect for everything (R76, R93,
R205), and a fatal fault is a next state here (log 3). -/
def Obligations.EveryStepAnswersANextState : Prop :=
  (∀ (i : Instr) (s : State), ∃ t, exec i s = .next t) ∧ (∀ s : State, ∃ t, step s = .next t)

/-- The frame rule R92 (the spec's decision D10) for all 34 instructions: nothing changes but the registers,
the bytes and the parts the instruction's rule writes. -/
def Obligations.EveryInstructionKeepsTheRest : Prop :=
  ∀ (i : Instr) (s t : State), exec i s = .next t →
    OnlyChanges (writtenRegs i) (storedCells i s) (writtenParts i) s t

/-- VF changes only where a rule writes it (R21): one of the six flag instructions, or an instruction that
names VF as its destination. -/
def Obligations.OnlyNamedInstructionsWriteVF : Prop :=
  ∀ (i : Instr) (s t : State), exec i s = .next t → t.getV VF ≠ s.getV VF →
    (∃ x y, i = .addReg x y ∨ i = .sub x y ∨ i = .shr x y ∨ i = .subn x y ∨ i = .shl x y ∨
      ∃ n, i = .drw x y n) ∨
    (∃ kk, i = .ldImm VF kk ∨ i = .addImm VF kk ∨ i = .rnd VF kk) ∨
    (∃ y, i = .ldReg VF y ∨ i = .orReg VF y ∨ i = .andReg VF y ∨ i = .xorReg VF y) ∨
    i = .ldFromDT VF ∨ i = .waitKey VF ∨ i = .load VF

/-- Priority and precision of fatal faults (R207, R208, the spec's derivation and decision D18): an execute
phase that halts has written nothing else (the model's reading, log 3), its record holds A and the word
(log 9), and each cause comes from its own instructions only. -/
def Obligations.FatalFaultsArePreciseAndOwn : Prop :=
  ∀ (i : Instr) (s t : State) (r : FaultRecord), s.status = .running → exec i s = .next t →
    t.status = .halted r →
    OnlyChanges [] [] [.status] s t ∧ r.A = s.pc - 2 ∧ r.w = some (encode i) ∧
    (r.cause = .stackUnderflow → i = .ret ∧ s.stack = []) ∧
    (r.cause = .stackOverflow → (∃ nnn, i = .call nnn) ∧ 16 ≤ s.stack.length) ∧
    (∀ v, r.cause = .keyIndexOutOfRange v →
      s.cfg.keyIndex = .fault ∧ 15 < v.toNat ∧ ∃ x, v = s.getV x ∧ (i = .skp x ∨ i = .sknp x)) ∧
    (∀ a, r.cause = .addressOutOfRange a → s.cfg.memOob = .fault ∧ 4096 ≤ a ∧
      ∃ x, i = .bcd x ∨ i = .store x ∨ i = .load x ∨ ∃ y n, i = .drw x y n)

/-- A halted engine stays halted with the same record, and its registers, timers, memory and display stay as
they are, through every sequence of steps, until a new construction (R209, R32 with the spec's decision D18). -/
def Obligations.HaltedUntilANewConstruction : Prop :=
  ∀ (es : List Event) (s : State) (r : FaultRecord), s.status = .halted r →
    (∀ cfg font, Event.host (.construct cfg font) ∉ es) →
    ∃ t, runEvents es s = .next t ∧ t.status = .halted r ∧ t.V = s.V ∧ t.I = s.I ∧ t.pc = s.pc ∧
      t.stack = s.stack ∧ t.DT = s.DT ∧ t.ST = s.ST ∧ t.fb = s.fb ∧
      ((∀ image, Event.host (.loadProgram image) ∉ es) → t.mem = s.mem)

/-- No step writes the keypad or the construction parameters (R28, R31), and a step draws at most one random
byte (R145, counted in the model's own field, log 5). -/
def Obligations.StepsKeepKeypadAndParameters : Prop :=
  ∀ s t : State, step s = .next t →
    t.keys = s.keys ∧ t.cfg = s.cfg ∧ s.draws ≤ t.draws ∧ t.draws ≤ s.draws + 1

/-! ### The invariant, construction and the ports -/

/-- Every step keeps the invariant: memory in canonical form, at most 16 stack entries (R25), no output on a
halted engine (R32). -/
def Obligations.StepsKeepTheInvariant : Prop :=
  ∀ s t : State, s.Inv → step s = .next t → t.Inv

/-- Every host action keeps the invariant (R220), so every run of host actions and steps does. -/
def Obligations.HostActionsAndRunsKeepTheInvariant : Prop :=
  (∀ (a : HostAction) (s : State), s.Inv → (hostAct a s).Inv) ∧
  (∀ (es : List Event) (s t : State), s.Inv → runEvents es s = .next t → t.Inv)

/-- The reset state meets the invariant: memory in canonical form, at most 16 stack entries, and no output held if
the engine is halted. -/
def Obligations.ResetMeetsTheInvariant : Prop := State.reset.Inv

/-- Construction (R230, R36, R53) for all parameters and every font table of 80 bytes. The reset values of I,
the draw flag and the status are the spec's decisions D15 and D18; the outputs and the draw counter are the
model's own fields (log 4, log 5). -/
def Obligations.ConstructionSetsEveryField : Prop :=
  ∀ (cfg : Config) (font : List Byte), fontTableWf font = true →
    (∀ r, (construct cfg font).getV r = 0) ∧ (construct cfg font).I = 0 ∧ (construct cfg font).pc = 0x200 ∧
    (construct cfg font).stack = [] ∧ (construct cfg font).DT = 0 ∧ (construct cfg font).ST = 0 ∧
    (∀ k, (construct cfg font).keyDown k = false) ∧
    (∀ px py, fbPixel (construct cfg font).fb px py = false) ∧ (construct cfg font).drawFlag = false ∧
    (construct cfg font).status = .running ∧ (construct cfg font).cfg = cfg ∧
    (construct cfg font).out = .silent ∧ (construct cfg font).draws = 0 ∧
    (∀ k (h : k < font.length), (construct cfg font).readByte (0x050 + k) = font[k]) ∧
    (∀ a, a < 4096 → (a < 0x050 ∨ 0x0A0 ≤ a) → (construct cfg font).readByte a = 0)

/-- The reset state is the construction with the decided parameters, the default font (log 6) and the quirks
off (log 2), with nothing of memory listed. -/
def Obligations.ResetIsTheDefaultConstruction : Prop :=
  State.reset = construct (.decided .allOff) defaultFont ∧ State.reset.mem = [] ∧ State.reset.pc = 0x200 ∧
    State.reset.readByte 0x050 = 0xF0 ∧ State.reset.readByte 0x09F = 0x80 ∧ State.reset.readByte 0x0A0 = 0

/-- `load_program` (R232): an image of more than 3584 bytes is an error that records its length (the table of
60_exceptions.md); any other is copied whole to 0x200, the other bytes keep their values, and nothing else
changes. Memory in canonical form is the invariant. -/
def Obligations.LoadProgramCopiesAllOrNothing : Prop :=
  ∀ (s : State) (image : List Byte), s.mem.wf →
    (image.length > 3584 → s.loadProgram image = .programTooLarge image.length ∧
      hostAct (.loadProgram image) s = s) ∧
    (image.length ≤ 3584 → ∃ t, s.loadProgram image = .ok t ∧ hostAct (.loadProgram image) s = t ∧
      (∀ k (h : k < image.length), t.readByte (0x200 + k) = image[k]) ∧
      OnlyChanges [] (cellsFrom 0x200 image.length) [] s t)

/-- The framebuffer output port (R223): one byte a pixel, 0 or 1, row-major, 64 × 32. -/
def Obligations.FramebufferPortIsRowMajor : Prop :=
  ∀ (s : State) (px : Fin 64) (py : Fin 32),
    s.framebufferPort[py.val * 64 + px.val]'(by omega) = if fbPixel s.fb px py then 1 else 0

/-- The host's key and draw-flag actions (R220, R221): a key event changes that key only, and clearing the draw
flag changes the flag only. That they fall between steps is the spec's decision D19. -/
def Obligations.KeyAndDrawFlagActions : Prop :=
  ∀ (s : State) (k : Key) (down : Bool),
    (∀ j, (hostAct (.setKey k down) s).keyDown j = if j = k then down else s.keyDown j) ∧
    OnlyChanges [] [] [.keys] s (hostAct (.setKey k down) s) ∧
    (hostAct .clearDrawFlag s).drawFlag = false ∧
    OnlyChanges [] [] [.drawFlag] s (hostAct .clearDrawFlag s)
end

