-- ==== Sys2Proof/Laws/Decode.lean ====
section
/-! SUPPORT. The fields of the words the encoder packs, and the fields of a word settle the word. -/

namespace Sys2Proof

theorem fieldX_eq (w : Word) : (fieldX w).val = w.toNat / 256 % 16 := by
  simp [fieldX, Nat.shiftRight_eq_div_pow]

theorem fieldY_eq (w : Word) : (fieldY w).val = w.toNat / 16 % 16 := by
  simp [fieldY, Nat.shiftRight_eq_div_pow]

theorem fieldN_eq (w : Word) : (fieldN w).val = w.toNat % 16 := by
  simp [fieldN]

theorem fieldOp_eq (w : Word) : fieldOp w = w.toNat / 4096 := by
  have := w.isLt
  simp only [fieldOp, BitVec.extractLsb'_toNat, Nat.shiftRight_eq_div_pow]
  omega

theorem fieldKK_toNat (w : Word) : (fieldKK w).toNat = w.toNat % 256 := by
  simp [fieldKK, BitVec.extractLsb'_toNat]

theorem fieldNNN_toNat (w : Word) : (fieldNNN w).toNat = w.toNat % 4096 := by
  simp [fieldNNN, BitVec.extractLsb'_toNat]

/-- A pack as a number, from which its fields can be read by arithmetic. -/
theorem packNNN_toNat (op : BitVec 4) (nnn : Addr12) :
    (packNNN op nnn).toNat = op.toNat * 4096 + nnn.toNat := by
  have := nnn.isLt
  simp only [packNNN, BitVec.toNat_append]
  rw [← Nat.shiftLeft_add_eq_or_of_lt this, Nat.shiftLeft_eq]

theorem packXKK_toNat (op : BitVec 4) (x : Reg) (kk : Byte) :
    (packXKK op x kk).toNat = op.toNat * 4096 + x.val * 256 + kk.toNat := by
  have h1 := kk.isLt
  have h2 := x.isLt
  simp only [packXKK, BitVec.toNat_append, BitVec.toNat_ofFin]
  rw [← Nat.shiftLeft_add_eq_or_of_lt h1, ← Nat.shiftLeft_add_eq_or_of_lt (i := 4) h2]
  simp only [Nat.shiftLeft_eq]
  omega

theorem packXYN_toNat (op : BitVec 4) (x y : Reg) (n : BitVec 4) :
    (packXYN op x y n).toNat = op.toNat * 4096 + x.val * 256 + y.val * 16 + n.toNat := by
  have h1 := n.isLt
  have h2 := x.isLt
  have h3 := y.isLt
  simp only [packXYN, BitVec.toNat_append, BitVec.toNat_ofFin]
  rw [← Nat.shiftLeft_add_eq_or_of_lt h1, ← Nat.shiftLeft_add_eq_or_of_lt (i := 4) h2,
    ← Nat.shiftLeft_add_eq_or_of_lt (i := 4) h3]
  simp only [Nat.shiftLeft_eq]
  omega

section fields
variable (op : BitVec 4) (x y : Reg) (kk : Byte) (n : BitVec 4) (nnn : Addr12)

@[simp] theorem fieldOp_packNNN : fieldOp (packNNN op nnn) = op.toNat := by
  have := nnn.isLt
  rw [fieldOp_eq, packNNN_toNat]; omega

@[simp] theorem fieldOp_packXKK : fieldOp (packXKK op x kk) = op.toNat := by
  have := x.isLt; have := kk.isLt
  rw [fieldOp_eq, packXKK_toNat]; omega

@[simp] theorem fieldOp_packXYN : fieldOp (packXYN op x y n) = op.toNat := by
  have := x.isLt; have := y.isLt; have := n.isLt
  rw [fieldOp_eq, packXYN_toNat]; omega

@[simp] theorem fieldNNN_packNNN : fieldNNN (packNNN op nnn) = nnn := by
  have := nnn.isLt
  apply BitVec.eq_of_toNat_eq
  rw [fieldNNN_toNat, packNNN_toNat]; omega

@[simp] theorem fieldX_packXKK : fieldX (packXKK op x kk) = x := by
  have := x.isLt; have := kk.isLt
  apply Fin.ext
  rw [fieldX_eq, packXKK_toNat]; omega

@[simp] theorem fieldKK_packXKK : fieldKK (packXKK op x kk) = kk := by
  have := kk.isLt
  apply BitVec.eq_of_toNat_eq
  rw [fieldKK_toNat, packXKK_toNat]; omega

@[simp] theorem fieldX_packXYN : fieldX (packXYN op x y n) = x := by
  have := x.isLt; have := y.isLt; have := n.isLt
  apply Fin.ext
  rw [fieldX_eq, packXYN_toNat]; omega

@[simp] theorem fieldY_packXYN : fieldY (packXYN op x y n) = y := by
  have := y.isLt; have := n.isLt
  apply Fin.ext
  rw [fieldY_eq, packXYN_toNat]; omega

@[simp] theorem fieldN_packXYN : fieldN (packXYN op x y n) = n.toFin := by
  have := n.isLt
  apply Fin.ext
  rw [fieldN_eq, packXYN_toNat]
  change _ = n.toNat
  omega

end fields

/-- Two words with the same fields `op`, `x`, `y`, `n` are the same word. -/
theorem word_ext {w w' : Word} (hop : fieldOp w = fieldOp w') (hx : fieldX w = fieldX w')
    (hy : fieldY w = fieldY w') (hn : fieldN w = fieldN w') : w = w' := by
  apply BitVec.eq_of_toNat_eq
  have h1 := congrArg Fin.val hx
  have h2 := congrArg Fin.val hy
  have h3 := congrArg Fin.val hn
  rw [fieldOp_eq, fieldOp_eq] at hop
  rw [fieldX_eq, fieldX_eq] at h1
  rw [fieldY_eq, fieldY_eq] at h2
  rw [fieldN_eq, fieldN_eq] at h3
  omega

/-- The bytes of a word give the word back (R58). -/
@[simp] theorem wordOfBytes_bytes (w : Word) : wordOfBytes (firstByte w) (secondByte w) = w := by
  have := w.isLt
  apply BitVec.eq_of_toNat_eq
  have h : (secondByte w).toNat < 2 ^ 8 := (secondByte w).isLt
  rw [wordOfBytes, BitVec.toNat_append, ← Nat.shiftLeft_add_eq_or_of_lt h]
  simp only [firstByte, secondByte, BitVec.extractLsb'_toNat, Nat.shiftRight_eq_div_pow, Nat.shiftLeft_eq]
  omega

/-- The word of two bytes as a number: the first byte is the high one (R58). -/
theorem wordOfBytes_toNat (hi lo : Byte) : (wordOfBytes hi lo).toNat = hi.toNat * 256 + lo.toNat := by
  have := lo.isLt
  rw [wordOfBytes, BitVec.toNat_append, ← Nat.shiftLeft_add_eq_or_of_lt this, Nat.shiftLeft_eq]

end Sys2Proof
end

