-- ==== Sys2Proof/Laws/State.lean ====
section
/-! SUPPORT. The fields of every update of the state, one lemma a field and update, so that no proof unfolds an update. -/

namespace Sys2Proof.Machine.State

variable (s : State)

/-! ### setV -/

@[simp] theorem setV_V (r : Reg) (v : Byte) : (s.setV r v).V = s.V.set r.val v := rfl
@[simp] theorem setV_I (r : Reg) (v : Byte) : (s.setV r v).I = s.I := rfl
@[simp] theorem setV_pc (r : Reg) (v : Byte) : (s.setV r v).pc = s.pc := rfl
@[simp] theorem setV_stack (r : Reg) (v : Byte) : (s.setV r v).stack = s.stack := rfl
@[simp] theorem setV_DT (r : Reg) (v : Byte) : (s.setV r v).DT = s.DT := rfl
@[simp] theorem setV_ST (r : Reg) (v : Byte) : (s.setV r v).ST = s.ST := rfl
@[simp] theorem setV_keys (r : Reg) (v : Byte) : (s.setV r v).keys = s.keys := rfl
@[simp] theorem setV_fb (r : Reg) (v : Byte) : (s.setV r v).fb = s.fb := rfl
@[simp] theorem setV_drawFlag (r : Reg) (v : Byte) : (s.setV r v).drawFlag = s.drawFlag := rfl
@[simp] theorem setV_status (r : Reg) (v : Byte) : (s.setV r v).status = s.status := rfl
@[simp] theorem setV_mem (r : Reg) (v : Byte) : (s.setV r v).mem = s.mem := rfl
@[simp] theorem setV_cfg (r : Reg) (v : Byte) : (s.setV r v).cfg = s.cfg := rfl
@[simp] theorem setV_out (r : Reg) (v : Byte) : (s.setV r v).out = s.out := rfl
@[simp] theorem setV_draws (r : Reg) (v : Byte) : (s.setV r v).draws = s.draws := rfl
@[simp] theorem setV_readByte (r : Reg) (v : Byte) (x : Nat) : (s.setV r v).readByte x = s.readByte x := rfl

/-! ### writeByte -/

@[simp] theorem writeByte_V (a : Nat) (v : Byte) : (s.writeByte a v).V = s.V := rfl
@[simp] theorem writeByte_I (a : Nat) (v : Byte) : (s.writeByte a v).I = s.I := rfl
@[simp] theorem writeByte_pc (a : Nat) (v : Byte) : (s.writeByte a v).pc = s.pc := rfl
@[simp] theorem writeByte_stack (a : Nat) (v : Byte) : (s.writeByte a v).stack = s.stack := rfl
@[simp] theorem writeByte_DT (a : Nat) (v : Byte) : (s.writeByte a v).DT = s.DT := rfl
@[simp] theorem writeByte_ST (a : Nat) (v : Byte) : (s.writeByte a v).ST = s.ST := rfl
@[simp] theorem writeByte_keys (a : Nat) (v : Byte) : (s.writeByte a v).keys = s.keys := rfl
@[simp] theorem writeByte_fb (a : Nat) (v : Byte) : (s.writeByte a v).fb = s.fb := rfl
@[simp] theorem writeByte_drawFlag (a : Nat) (v : Byte) : (s.writeByte a v).drawFlag = s.drawFlag := rfl
@[simp] theorem writeByte_status (a : Nat) (v : Byte) : (s.writeByte a v).status = s.status := rfl
@[simp] theorem writeByte_mem (a : Nat) (v : Byte) : (s.writeByte a v).mem = s.mem.write (ea a) v := rfl
@[simp] theorem writeByte_cfg (a : Nat) (v : Byte) : (s.writeByte a v).cfg = s.cfg := rfl
@[simp] theorem writeByte_out (a : Nat) (v : Byte) : (s.writeByte a v).out = s.out := rfl
@[simp] theorem writeByte_draws (a : Nat) (v : Byte) : (s.writeByte a v).draws = s.draws := rfl
@[simp] theorem writeByte_getV (a : Nat) (v : Byte) (q : Reg) : (s.writeByte a v).getV q = s.getV q := rfl

/-! ### setPc -/

@[simp] theorem setPc_V (v : Word) : (s.setPc v).V = s.V := rfl
@[simp] theorem setPc_I (v : Word) : (s.setPc v).I = s.I := rfl
@[simp] theorem setPc_pc (v : Word) : (s.setPc v).pc = v := rfl
@[simp] theorem setPc_stack (v : Word) : (s.setPc v).stack = s.stack := rfl
@[simp] theorem setPc_DT (v : Word) : (s.setPc v).DT = s.DT := rfl
@[simp] theorem setPc_ST (v : Word) : (s.setPc v).ST = s.ST := rfl
@[simp] theorem setPc_keys (v : Word) : (s.setPc v).keys = s.keys := rfl
@[simp] theorem setPc_fb (v : Word) : (s.setPc v).fb = s.fb := rfl
@[simp] theorem setPc_drawFlag (v : Word) : (s.setPc v).drawFlag = s.drawFlag := rfl
@[simp] theorem setPc_status (v : Word) : (s.setPc v).status = s.status := rfl
@[simp] theorem setPc_mem (v : Word) : (s.setPc v).mem = s.mem := rfl
@[simp] theorem setPc_cfg (v : Word) : (s.setPc v).cfg = s.cfg := rfl
@[simp] theorem setPc_out (v : Word) : (s.setPc v).out = s.out := rfl
@[simp] theorem setPc_draws (v : Word) : (s.setPc v).draws = s.draws := rfl
@[simp] theorem setPc_getV (v : Word) (q : Reg) : (s.setPc v).getV q = s.getV q := rfl
@[simp] theorem setPc_readByte (v : Word) (x : Nat) : (s.setPc v).readByte x = s.readByte x := rfl

/-! ### setI -/

@[simp] theorem setI_V (v : Word) : (s.setI v).V = s.V := rfl
@[simp] theorem setI_I (v : Word) : (s.setI v).I = v := rfl
@[simp] theorem setI_pc (v : Word) : (s.setI v).pc = s.pc := rfl
@[simp] theorem setI_stack (v : Word) : (s.setI v).stack = s.stack := rfl
@[simp] theorem setI_DT (v : Word) : (s.setI v).DT = s.DT := rfl
@[simp] theorem setI_ST (v : Word) : (s.setI v).ST = s.ST := rfl
@[simp] theorem setI_keys (v : Word) : (s.setI v).keys = s.keys := rfl
@[simp] theorem setI_fb (v : Word) : (s.setI v).fb = s.fb := rfl
@[simp] theorem setI_drawFlag (v : Word) : (s.setI v).drawFlag = s.drawFlag := rfl
@[simp] theorem setI_status (v : Word) : (s.setI v).status = s.status := rfl
@[simp] theorem setI_mem (v : Word) : (s.setI v).mem = s.mem := rfl
@[simp] theorem setI_cfg (v : Word) : (s.setI v).cfg = s.cfg := rfl
@[simp] theorem setI_out (v : Word) : (s.setI v).out = s.out := rfl
@[simp] theorem setI_draws (v : Word) : (s.setI v).draws = s.draws := rfl
@[simp] theorem setI_getV (v : Word) (q : Reg) : (s.setI v).getV q = s.getV q := rfl
@[simp] theorem setI_readByte (v : Word) (x : Nat) : (s.setI v).readByte x = s.readByte x := rfl

/-! ### setDT -/

@[simp] theorem setDT_V (v : Byte) : (s.setDT v).V = s.V := rfl
@[simp] theorem setDT_I (v : Byte) : (s.setDT v).I = s.I := rfl
@[simp] theorem setDT_pc (v : Byte) : (s.setDT v).pc = s.pc := rfl
@[simp] theorem setDT_stack (v : Byte) : (s.setDT v).stack = s.stack := rfl
@[simp] theorem setDT_DT (v : Byte) : (s.setDT v).DT = v := rfl
@[simp] theorem setDT_ST (v : Byte) : (s.setDT v).ST = s.ST := rfl
@[simp] theorem setDT_keys (v : Byte) : (s.setDT v).keys = s.keys := rfl
@[simp] theorem setDT_fb (v : Byte) : (s.setDT v).fb = s.fb := rfl
@[simp] theorem setDT_drawFlag (v : Byte) : (s.setDT v).drawFlag = s.drawFlag := rfl
@[simp] theorem setDT_status (v : Byte) : (s.setDT v).status = s.status := rfl
@[simp] theorem setDT_mem (v : Byte) : (s.setDT v).mem = s.mem := rfl
@[simp] theorem setDT_cfg (v : Byte) : (s.setDT v).cfg = s.cfg := rfl
@[simp] theorem setDT_out (v : Byte) : (s.setDT v).out = s.out := rfl
@[simp] theorem setDT_draws (v : Byte) : (s.setDT v).draws = s.draws := rfl
@[simp] theorem setDT_getV (v : Byte) (q : Reg) : (s.setDT v).getV q = s.getV q := rfl
@[simp] theorem setDT_readByte (v : Byte) (x : Nat) : (s.setDT v).readByte x = s.readByte x := rfl

/-! ### setST -/

@[simp] theorem setST_V (v : Byte) : (s.setST v).V = s.V := rfl
@[simp] theorem setST_I (v : Byte) : (s.setST v).I = s.I := rfl
@[simp] theorem setST_pc (v : Byte) : (s.setST v).pc = s.pc := rfl
@[simp] theorem setST_stack (v : Byte) : (s.setST v).stack = s.stack := rfl
@[simp] theorem setST_DT (v : Byte) : (s.setST v).DT = s.DT := rfl
@[simp] theorem setST_ST (v : Byte) : (s.setST v).ST = v := rfl
@[simp] theorem setST_keys (v : Byte) : (s.setST v).keys = s.keys := rfl
@[simp] theorem setST_fb (v : Byte) : (s.setST v).fb = s.fb := rfl
@[simp] theorem setST_drawFlag (v : Byte) : (s.setST v).drawFlag = s.drawFlag := rfl
@[simp] theorem setST_status (v : Byte) : (s.setST v).status = s.status := rfl
@[simp] theorem setST_mem (v : Byte) : (s.setST v).mem = s.mem := rfl
@[simp] theorem setST_cfg (v : Byte) : (s.setST v).cfg = s.cfg := rfl
@[simp] theorem setST_out (v : Byte) : (s.setST v).out = s.out := rfl
@[simp] theorem setST_draws (v : Byte) : (s.setST v).draws = s.draws := rfl
@[simp] theorem setST_getV (v : Byte) (q : Reg) : (s.setST v).getV q = s.getV q := rfl
@[simp] theorem setST_readByte (v : Byte) (x : Nat) : (s.setST v).readByte x = s.readByte x := rfl

/-! ### setStack -/

@[simp] theorem setStack_V (l : List Word) : (s.setStack l).V = s.V := rfl
@[simp] theorem setStack_I (l : List Word) : (s.setStack l).I = s.I := rfl
@[simp] theorem setStack_pc (l : List Word) : (s.setStack l).pc = s.pc := rfl
@[simp] theorem setStack_stack (l : List Word) : (s.setStack l).stack = l := rfl
@[simp] theorem setStack_DT (l : List Word) : (s.setStack l).DT = s.DT := rfl
@[simp] theorem setStack_ST (l : List Word) : (s.setStack l).ST = s.ST := rfl
@[simp] theorem setStack_keys (l : List Word) : (s.setStack l).keys = s.keys := rfl
@[simp] theorem setStack_fb (l : List Word) : (s.setStack l).fb = s.fb := rfl
@[simp] theorem setStack_drawFlag (l : List Word) : (s.setStack l).drawFlag = s.drawFlag := rfl
@[simp] theorem setStack_status (l : List Word) : (s.setStack l).status = s.status := rfl
@[simp] theorem setStack_mem (l : List Word) : (s.setStack l).mem = s.mem := rfl
@[simp] theorem setStack_cfg (l : List Word) : (s.setStack l).cfg = s.cfg := rfl
@[simp] theorem setStack_out (l : List Word) : (s.setStack l).out = s.out := rfl
@[simp] theorem setStack_draws (l : List Word) : (s.setStack l).draws = s.draws := rfl
@[simp] theorem setStack_getV (l : List Word) (q : Reg) : (s.setStack l).getV q = s.getV q := rfl
@[simp] theorem setStack_readByte (l : List Word) (x : Nat) : (s.setStack l).readByte x = s.readByte x := rfl

/-! ### setDisplay -/

@[simp] theorem setDisplay_V (f : Framebuffer) : (s.setDisplay f).V = s.V := rfl
@[simp] theorem setDisplay_I (f : Framebuffer) : (s.setDisplay f).I = s.I := rfl
@[simp] theorem setDisplay_pc (f : Framebuffer) : (s.setDisplay f).pc = s.pc := rfl
@[simp] theorem setDisplay_stack (f : Framebuffer) : (s.setDisplay f).stack = s.stack := rfl
@[simp] theorem setDisplay_DT (f : Framebuffer) : (s.setDisplay f).DT = s.DT := rfl
@[simp] theorem setDisplay_ST (f : Framebuffer) : (s.setDisplay f).ST = s.ST := rfl
@[simp] theorem setDisplay_keys (f : Framebuffer) : (s.setDisplay f).keys = s.keys := rfl
@[simp] theorem setDisplay_fb (f : Framebuffer) : (s.setDisplay f).fb = f := rfl
@[simp] theorem setDisplay_drawFlag (f : Framebuffer) : (s.setDisplay f).drawFlag = true := rfl
@[simp] theorem setDisplay_status (f : Framebuffer) : (s.setDisplay f).status = s.status := rfl
@[simp] theorem setDisplay_mem (f : Framebuffer) : (s.setDisplay f).mem = s.mem := rfl
@[simp] theorem setDisplay_cfg (f : Framebuffer) : (s.setDisplay f).cfg = s.cfg := rfl
@[simp] theorem setDisplay_out (f : Framebuffer) : (s.setDisplay f).out = s.out := rfl
@[simp] theorem setDisplay_draws (f : Framebuffer) : (s.setDisplay f).draws = s.draws := rfl
@[simp] theorem setDisplay_getV (f : Framebuffer) (q : Reg) : (s.setDisplay f).getV q = s.getV q := rfl
@[simp] theorem setDisplay_readByte (f : Framebuffer) (x : Nat) : (s.setDisplay f).readByte x = s.readByte x := rfl

/-! ### countDraw -/

@[simp] theorem countDraw_V : (s.countDraw).V = s.V := rfl
@[simp] theorem countDraw_I : (s.countDraw).I = s.I := rfl
@[simp] theorem countDraw_pc : (s.countDraw).pc = s.pc := rfl
@[simp] theorem countDraw_stack : (s.countDraw).stack = s.stack := rfl
@[simp] theorem countDraw_DT : (s.countDraw).DT = s.DT := rfl
@[simp] theorem countDraw_ST : (s.countDraw).ST = s.ST := rfl
@[simp] theorem countDraw_keys : (s.countDraw).keys = s.keys := rfl
@[simp] theorem countDraw_fb : (s.countDraw).fb = s.fb := rfl
@[simp] theorem countDraw_drawFlag : (s.countDraw).drawFlag = s.drawFlag := rfl
@[simp] theorem countDraw_status : (s.countDraw).status = s.status := rfl
@[simp] theorem countDraw_mem : (s.countDraw).mem = s.mem := rfl
@[simp] theorem countDraw_cfg : (s.countDraw).cfg = s.cfg := rfl
@[simp] theorem countDraw_out : (s.countDraw).out = s.out := rfl
@[simp] theorem countDraw_draws : (s.countDraw).draws = s.draws + 1 := rfl
@[simp] theorem countDraw_getV (q : Reg) : (s.countDraw).getV q = s.getV q := rfl
@[simp] theorem countDraw_readByte (x : Nat) : (s.countDraw).readByte x = s.readByte x := rfl

/-! ### halt -/

@[simp] theorem halt_V (r : FaultRecord) : (s.halt r).V = s.V := rfl
@[simp] theorem halt_I (r : FaultRecord) : (s.halt r).I = s.I := rfl
@[simp] theorem halt_pc (r : FaultRecord) : (s.halt r).pc = s.pc := rfl
@[simp] theorem halt_stack (r : FaultRecord) : (s.halt r).stack = s.stack := rfl
@[simp] theorem halt_DT (r : FaultRecord) : (s.halt r).DT = s.DT := rfl
@[simp] theorem halt_ST (r : FaultRecord) : (s.halt r).ST = s.ST := rfl
@[simp] theorem halt_keys (r : FaultRecord) : (s.halt r).keys = s.keys := rfl
@[simp] theorem halt_fb (r : FaultRecord) : (s.halt r).fb = s.fb := rfl
@[simp] theorem halt_drawFlag (r : FaultRecord) : (s.halt r).drawFlag = s.drawFlag := rfl
@[simp] theorem halt_status (r : FaultRecord) : (s.halt r).status = .halted r := rfl
@[simp] theorem halt_mem (r : FaultRecord) : (s.halt r).mem = s.mem := rfl
@[simp] theorem halt_cfg (r : FaultRecord) : (s.halt r).cfg = s.cfg := rfl
@[simp] theorem halt_out (r : FaultRecord) : (s.halt r).out = s.out := rfl
@[simp] theorem halt_draws (r : FaultRecord) : (s.halt r).draws = s.draws := rfl
@[simp] theorem halt_getV (r : FaultRecord) (q : Reg) : (s.halt r).getV q = s.getV q := rfl
@[simp] theorem halt_readByte (r : FaultRecord) (x : Nat) : (s.halt r).readByte x = s.readByte x := rfl

/-! ### quiet -/

@[simp] theorem quiet_V : (s.quiet).V = s.V := rfl
@[simp] theorem quiet_I : (s.quiet).I = s.I := rfl
@[simp] theorem quiet_pc : (s.quiet).pc = s.pc := rfl
@[simp] theorem quiet_stack : (s.quiet).stack = s.stack := rfl
@[simp] theorem quiet_DT : (s.quiet).DT = s.DT := rfl
@[simp] theorem quiet_ST : (s.quiet).ST = s.ST := rfl
@[simp] theorem quiet_keys : (s.quiet).keys = s.keys := rfl
@[simp] theorem quiet_fb : (s.quiet).fb = s.fb := rfl
@[simp] theorem quiet_drawFlag : (s.quiet).drawFlag = s.drawFlag := rfl
@[simp] theorem quiet_status : (s.quiet).status = s.status := rfl
@[simp] theorem quiet_mem : (s.quiet).mem = s.mem := rfl
@[simp] theorem quiet_cfg : (s.quiet).cfg = s.cfg := rfl
@[simp] theorem quiet_out : (s.quiet).out = .silent := rfl
@[simp] theorem quiet_draws : (s.quiet).draws = s.draws := rfl
@[simp] theorem quiet_getV (q : Reg) : (s.quiet).getV q = s.getV q := rfl
@[simp] theorem quiet_readByte (x : Nat) : (s.quiet).readByte x = s.readByte x := rfl

/-! ### reportUnknown -/

@[simp] theorem reportUnknown_V (w : Word) : (s.reportUnknown w).V = s.V := rfl
@[simp] theorem reportUnknown_I (w : Word) : (s.reportUnknown w).I = s.I := rfl
@[simp] theorem reportUnknown_pc (w : Word) : (s.reportUnknown w).pc = s.pc := rfl
@[simp] theorem reportUnknown_stack (w : Word) : (s.reportUnknown w).stack = s.stack := rfl
@[simp] theorem reportUnknown_DT (w : Word) : (s.reportUnknown w).DT = s.DT := rfl
@[simp] theorem reportUnknown_ST (w : Word) : (s.reportUnknown w).ST = s.ST := rfl
@[simp] theorem reportUnknown_keys (w : Word) : (s.reportUnknown w).keys = s.keys := rfl
@[simp] theorem reportUnknown_fb (w : Word) : (s.reportUnknown w).fb = s.fb := rfl
@[simp] theorem reportUnknown_drawFlag (w : Word) : (s.reportUnknown w).drawFlag = s.drawFlag := rfl
@[simp] theorem reportUnknown_status (w : Word) : (s.reportUnknown w).status = s.status := rfl
@[simp] theorem reportUnknown_mem (w : Word) : (s.reportUnknown w).mem = s.mem := rfl
@[simp] theorem reportUnknown_cfg (w : Word) : (s.reportUnknown w).cfg = s.cfg := rfl
@[simp] theorem reportUnknown_out (w : Word) : (s.reportUnknown w).out = { s.out with diag := some { A := s.fetchAddress, w := w } } := rfl
@[simp] theorem reportUnknown_draws (w : Word) : (s.reportUnknown w).draws = s.draws := rfl
@[simp] theorem reportUnknown_getV (w : Word) (q : Reg) : (s.reportUnknown w).getV q = s.getV q := rfl
@[simp] theorem reportUnknown_readByte (w : Word) (x : Nat) : (s.reportUnknown w).readByte x = s.readByte x := rfl

/-! ### timerTick -/

@[simp] theorem timerTick_V : (s.timerTick).V = s.V := rfl
@[simp] theorem timerTick_I : (s.timerTick).I = s.I := rfl
@[simp] theorem timerTick_pc : (s.timerTick).pc = s.pc := rfl
@[simp] theorem timerTick_stack : (s.timerTick).stack = s.stack := rfl
@[simp] theorem timerTick_DT : (s.timerTick).DT = tickDown s.DT := rfl
@[simp] theorem timerTick_ST : (s.timerTick).ST = tickDown s.ST := rfl
@[simp] theorem timerTick_keys : (s.timerTick).keys = s.keys := rfl
@[simp] theorem timerTick_fb : (s.timerTick).fb = s.fb := rfl
@[simp] theorem timerTick_drawFlag : (s.timerTick).drawFlag = s.drawFlag := rfl
@[simp] theorem timerTick_status : (s.timerTick).status = s.status := rfl
@[simp] theorem timerTick_mem : (s.timerTick).mem = s.mem := rfl
@[simp] theorem timerTick_cfg : (s.timerTick).cfg = s.cfg := rfl
@[simp] theorem timerTick_out : (s.timerTick).out = { s.out with beep := s.ST == 1 } := rfl
@[simp] theorem timerTick_draws : (s.timerTick).draws = s.draws := rfl
@[simp] theorem timerTick_getV (q : Reg) : (s.timerTick).getV q = s.getV q := rfl
@[simp] theorem timerTick_readByte (x : Nat) : (s.timerTick).readByte x = s.readByte x := rfl

/-! ### setKey -/

@[simp] theorem setKey_V (k : Key) (down : Bool) : (s.setKey k down).V = s.V := rfl
@[simp] theorem setKey_I (k : Key) (down : Bool) : (s.setKey k down).I = s.I := rfl
@[simp] theorem setKey_pc (k : Key) (down : Bool) : (s.setKey k down).pc = s.pc := rfl
@[simp] theorem setKey_stack (k : Key) (down : Bool) : (s.setKey k down).stack = s.stack := rfl
@[simp] theorem setKey_DT (k : Key) (down : Bool) : (s.setKey k down).DT = s.DT := rfl
@[simp] theorem setKey_ST (k : Key) (down : Bool) : (s.setKey k down).ST = s.ST := rfl
@[simp] theorem setKey_keys (k : Key) (down : Bool) : (s.setKey k down).keys = s.keys.set k.val down := rfl
@[simp] theorem setKey_fb (k : Key) (down : Bool) : (s.setKey k down).fb = s.fb := rfl
@[simp] theorem setKey_drawFlag (k : Key) (down : Bool) : (s.setKey k down).drawFlag = s.drawFlag := rfl
@[simp] theorem setKey_status (k : Key) (down : Bool) : (s.setKey k down).status = s.status := rfl
@[simp] theorem setKey_mem (k : Key) (down : Bool) : (s.setKey k down).mem = s.mem := rfl
@[simp] theorem setKey_cfg (k : Key) (down : Bool) : (s.setKey k down).cfg = s.cfg := rfl
@[simp] theorem setKey_out (k : Key) (down : Bool) : (s.setKey k down).out = s.out := rfl
@[simp] theorem setKey_draws (k : Key) (down : Bool) : (s.setKey k down).draws = s.draws := rfl
@[simp] theorem setKey_getV (k : Key) (down : Bool) (q : Reg) : (s.setKey k down).getV q = s.getV q := rfl
@[simp] theorem setKey_readByte (k : Key) (down : Bool) (x : Nat) : (s.setKey k down).readByte x = s.readByte x := rfl

/-! ### clearDrawFlag -/

@[simp] theorem clearDrawFlag_V : (s.clearDrawFlag).V = s.V := rfl
@[simp] theorem clearDrawFlag_I : (s.clearDrawFlag).I = s.I := rfl
@[simp] theorem clearDrawFlag_pc : (s.clearDrawFlag).pc = s.pc := rfl
@[simp] theorem clearDrawFlag_stack : (s.clearDrawFlag).stack = s.stack := rfl
@[simp] theorem clearDrawFlag_DT : (s.clearDrawFlag).DT = s.DT := rfl
@[simp] theorem clearDrawFlag_ST : (s.clearDrawFlag).ST = s.ST := rfl
@[simp] theorem clearDrawFlag_keys : (s.clearDrawFlag).keys = s.keys := rfl
@[simp] theorem clearDrawFlag_fb : (s.clearDrawFlag).fb = s.fb := rfl
@[simp] theorem clearDrawFlag_drawFlag : (s.clearDrawFlag).drawFlag = false := rfl
@[simp] theorem clearDrawFlag_status : (s.clearDrawFlag).status = s.status := rfl
@[simp] theorem clearDrawFlag_mem : (s.clearDrawFlag).mem = s.mem := rfl
@[simp] theorem clearDrawFlag_cfg : (s.clearDrawFlag).cfg = s.cfg := rfl
@[simp] theorem clearDrawFlag_out : (s.clearDrawFlag).out = s.out := rfl
@[simp] theorem clearDrawFlag_draws : (s.clearDrawFlag).draws = s.draws := rfl
@[simp] theorem clearDrawFlag_getV (q : Reg) : (s.clearDrawFlag).getV q = s.getV q := rfl
@[simp] theorem clearDrawFlag_readByte (x : Nat) : (s.clearDrawFlag).readByte x = s.readByte x := rfl

/-! ### Names for these updates -/

@[simp] theorem advance_eq : s.advance = s.setPc (s.pc + 2) := rfl
@[simp] theorem skipIf_eq (c : Bool) : s.skipIf c = s.setPc (if c then s.pc + 2 else s.pc) := rfl
@[simp] theorem advanceIndex_eq (x : Reg) : s.advanceIndex x =
    s.setI (if s.cfg.quirks.fx55IncreasesI then s.I + BitVec.ofNat 16 (x.val + 1) else s.I) := rfl
@[simp] theorem raise_eq (c : FatalCause) (i : Instr) :
    s.raise c i = s.halt { cause := c, A := s.pc - 2, w := some (encode i) } := rfl
@[simp] theorem fetchFault_eq (a : Nat) :
    s.fetchFault a = s.halt { cause := .addressOutOfRange a, A := s.pc, w := none } := rfl
@[simp] theorem fetchAddress_eq : s.fetchAddress = s.pc - 2 := rfl

/-! ### Registers -/

theorem getV_setV (r q : Reg) (v : Byte) : (s.setV r v).getV q = if q = r then v else s.getV q := by
  simp only [getV, setV, Vector.get_eq_getElem, Vector.getElem_set, Fin.ext_iff, eq_comm]

@[simp] theorem getV_setV_same (r : Reg) (v : Byte) : (s.setV r v).getV r = v := by
  simp [getV_setV]

theorem getV_setV_other {r q : Reg} (h : q ≠ r) (v : Byte) : (s.setV r v).getV q = s.getV q := by
  simp [getV_setV, h]

end Sys2Proof.Machine.State
end

