-- ==== Sys2Proof/Laws/Memory.lean ====
section
/-! SUPPORT. Memory: a read after a write, the canonical form kept by every operation, and equal canonical memories are equal data. -/

namespace Sys2Proof.Machine

/-- The addresses of a memory rise strictly: the part of `Memory.wf` that reads depend on. -/
abbrev Memory.rising (m : Memory) : Prop := m.Pairwise (fun p q => p.1 < q.1)

namespace Memory

theorem read_below {m : Memory} {a : Nat} (h : ∀ p ∈ m, a < p.1) : m.read a = unlisted a := by
  induction m with
  | nil => rfl
  | cons p rest ih =>
    obtain ⟨b, w⟩ := p
    have hb : a < b := h _ List.mem_cons_self
    rw [read, if_neg (by omega), ih fun q hq => h q (List.mem_cons_of_mem _ hq)]

theorem read_write_same {m : Memory} (h : m.rising) (a : Nat) (v : Byte) :
    (m.write a v).read a = v := by
  induction m with
  | nil => by_cases hv : v = unlisted a <;> simp [write, read, hv]
  | cons p rest ih =>
    obtain ⟨b, w⟩ := p
    obtain ⟨hb, hrest⟩ := List.pairwise_cons.1 h
    rw [write]
    split
    · by_cases hv : v = unlisted a
      · rw [if_pos hv, read_below, hv]
        intro p hp
        rcases List.mem_cons.1 hp with rfl | hp
        · assumption
        · have := hb p hp; simp only at this ⊢; omega
      · simp [hv, read]
    · split
      · by_cases hv : v = unlisted a
        · subst a
          rw [if_pos hv, read_below hb, hv]
        · simp [hv, read]
      · rw [read, if_neg (by omega), ih hrest]

theorem read_write_other (m : Memory) {a b : Nat} (h : b ≠ a) (v : Byte) :
    (m.write a v).read b = m.read b := by
  induction m with
  | nil => by_cases hv : v = unlisted a <;> simp [write, read, hv, Ne.symm h]
  | cons p rest ih =>
    obtain ⟨c, w⟩ := p
    rw [write]
    split
    · by_cases hv : v = unlisted a <;> simp [hv, read, Ne.symm h]
    · split
      · subst c
        by_cases hv : v = unlisted a <;> simp [hv, read, Ne.symm h]
      · simp only [read, ih]

theorem mem_write {m : Memory} {a : Nat} {v : Byte} {p : Host.Cell} (h : p ∈ m.write a v) :
    p ∈ m ∨ (p = (a, v) ∧ v ≠ unlisted a) := by
  induction m with
  | nil =>
    by_cases hv : v = unlisted a
    · simp [write, hv] at h
    · simp only [write, if_neg hv, List.mem_singleton] at h
      exact .inr ⟨h, hv⟩
  | cons q rest ih =>
    obtain ⟨b, w⟩ := q
    rw [write] at h
    split at h
    · by_cases hv : v = unlisted a
      · rw [if_pos hv] at h; exact .inl h
      · rw [if_neg hv] at h
        rcases List.mem_cons.1 h with rfl | h
        · exact .inr ⟨rfl, hv⟩
        · exact .inl h
    · split at h
      · by_cases hv : v = unlisted a
        · rw [if_pos hv] at h; exact .inl (List.mem_cons_of_mem _ h)
        · rw [if_neg hv] at h
          rcases List.mem_cons.1 h with rfl | h
          · exact .inr ⟨rfl, hv⟩
          · exact .inl (List.mem_cons_of_mem _ h)
      · rcases List.mem_cons.1 h with rfl | h
        · exact .inl List.mem_cons_self
        · exact (ih h).imp_left (List.mem_cons_of_mem _)

theorem rising_write {m : Memory} (h : m.rising) (a : Nat) (v : Byte) : (m.write a v).rising := by
  induction m with
  | nil => by_cases hv : v = unlisted a <;> simp [write, rising, hv]
  | cons p rest ih =>
    obtain ⟨b, w⟩ := p
    obtain ⟨hb, hrest⟩ := List.pairwise_cons.1 h
    rw [write]
    split
    · by_cases hv : v = unlisted a
      · rwa [if_pos hv]
      · rw [if_neg hv]
        refine List.pairwise_cons.2 ⟨fun q hq => ?_, h⟩
        rcases List.mem_cons.1 hq with rfl | hq
        · assumption
        · have := hb q hq; simp only at this ⊢; omega
    · split
      · by_cases hv : v = unlisted a
        · rwa [if_pos hv]
        · subst a
          rw [if_neg hv]
          exact List.pairwise_cons.2 ⟨hb, hrest⟩
      · refine List.pairwise_cons.2 ⟨fun q hq => ?_, ih hrest⟩
        rcases mem_write hq with hq | ⟨rfl, -⟩
        · exact hb q hq
        · simp only; omega

/-- Every write inside memory keeps the canonical form. -/
theorem write_wf {m : Memory} (h : m.wf) {a : Nat} (ha : a < memSize) (v : Byte) : (m.write a v).wf := by
  refine ⟨rising_write h.1 a v, fun p hp => ?_⟩
  rcases mem_write hp with hp | ⟨rfl, hv⟩
  · exact h.2 p hp
  · exact ⟨ha, hv⟩

end Memory

theorem ea_lt (a : Nat) : ea a < memSize := Nat.mod_lt _ (by decide)

theorem ea_of_lt {a : Nat} (h : a < memSize) : ea a = a := Nat.mod_eq_of_lt h

namespace State

/-- A read after a write (R57, R63). -/
theorem readByte_writeByte {s : State} (h : s.mem.rising) (a b : Nat) (v : Byte) :
    (s.writeByte a v).readByte b = if ea b = ea a then v else s.readByte b := by
  simp only [readByte, writeByte_mem]
  split
  · next he => rw [he, Memory.read_write_same h]
  · next he => exact Memory.read_write_other _ he v

theorem readByte_writeByte_other (s : State) {a b : Nat} (h : ea b ≠ ea a) (v : Byte) :
    (s.writeByte a v).readByte b = s.readByte b :=
  Memory.read_write_other _ h v

theorem writeByte_wf {s : State} (h : s.mem.wf) (a : Nat) (v : Byte) : (s.writeByte a v).mem.wf :=
  Memory.write_wf h (ea_lt a) v

theorem writeBytes_wf {s : State} (h : s.mem.wf) (base : Nat) (vs : List Byte) :
    (s.writeBytes base vs).mem.wf := by
  induction vs generalizing s base with
  | nil => exact h
  | cons v vs ih => exact ih (writeByte_wf h base v) (base + 1)

/-- `writeBytes` changes memory and nothing else. -/
theorem writeBytes_eq (s : State) (base : Nat) (vs : List Byte) :
    s.writeBytes base vs = { s with mem := (s.writeBytes base vs).mem } := by
  induction vs generalizing s base with
  | nil => rfl
  | cons v vs ih =>
    have h := ih (s.writeByte base v) (base + 1)
    exact h

section
variable (s : State) (base : Nat) (vs : List Byte)
@[simp] theorem writeBytes_V : (s.writeBytes base vs).V = s.V := by rw [writeBytes_eq]
@[simp] theorem writeBytes_I : (s.writeBytes base vs).I = s.I := by rw [writeBytes_eq]
@[simp] theorem writeBytes_pc : (s.writeBytes base vs).pc = s.pc := by rw [writeBytes_eq]
@[simp] theorem writeBytes_stack : (s.writeBytes base vs).stack = s.stack := by rw [writeBytes_eq]
@[simp] theorem writeBytes_DT : (s.writeBytes base vs).DT = s.DT := by rw [writeBytes_eq]
@[simp] theorem writeBytes_ST : (s.writeBytes base vs).ST = s.ST := by rw [writeBytes_eq]
@[simp] theorem writeBytes_keys : (s.writeBytes base vs).keys = s.keys := by rw [writeBytes_eq]
@[simp] theorem writeBytes_fb : (s.writeBytes base vs).fb = s.fb := by rw [writeBytes_eq]
@[simp] theorem writeBytes_drawFlag : (s.writeBytes base vs).drawFlag = s.drawFlag := by rw [writeBytes_eq]
@[simp] theorem writeBytes_status : (s.writeBytes base vs).status = s.status := by rw [writeBytes_eq]
@[simp] theorem writeBytes_cfg : (s.writeBytes base vs).cfg = s.cfg := by rw [writeBytes_eq]
@[simp] theorem writeBytes_out : (s.writeBytes base vs).out = s.out := by rw [writeBytes_eq]
@[simp] theorem writeBytes_draws : (s.writeBytes base vs).draws = s.draws := by rw [writeBytes_eq]
@[simp] theorem writeBytes_getV (r : Reg) : (s.writeBytes base vs).getV r = s.getV r := by
  simp only [getV, writeBytes_V]
end

/-- A byte outside the addresses written is unchanged. -/
theorem readByte_writeBytes_other (s : State) {base b : Nat} {vs : List Byte}
    (h : ∀ k < vs.length, ea b ≠ ea (base + k)) : (s.writeBytes base vs).readByte b = s.readByte b := by
  induction vs generalizing s base with
  | nil => rfl
  | cons v vs ih =>
    have hrest : ∀ k < vs.length, ea b ≠ ea (base + 1 + k) := fun k hk => by
      have := h (k + 1) (by simpa using hk)
      rwa [show base + (k + 1) = base + 1 + k by omega] at this
    rw [writeBytes, ih _ hrest, readByte_writeByte_other _ (by simpa using h 0 (by simp))]

/-- The k-th byte written is read back, as long as the addresses do not wrap onto themselves. -/
theorem readByte_writeBytes {s : State} (hs : s.mem.wf) {base k : Nat} {vs : List Byte}
    (hlen : vs.length ≤ memSize) (hk : k < vs.length) :
    (s.writeBytes base vs).readByte (base + k) = vs[k] := by
  induction vs generalizing s base k with
  | nil => simp at hk
  | cons v vs ih =>
    have hlen' : vs.length + 1 ≤ memSize := by simpa using hlen
    rw [writeBytes]
    cases k with
    | zero =>
      rw [readByte_writeBytes_other, Nat.add_zero, readByte_writeByte hs.1, if_pos rfl]
      · rfl
      · intro j hj
        simp only [ea, memSize] at *
        omega
    | succ k =>
      have := ih (writeByte_wf hs base v) (base := base + 1) (k := k) (by omega) (by simpa using hk)
      rwa [show base + 1 + k = base + (k + 1) by omega] at this

end State

/-- Equal canonical memories are equal data: a canonical memory is settled by the bytes it reads as. -/
theorem Memory.eq_of_read_eq {m m' : Memory} (h : m.wf) (h' : m'.wf)
    (heq : ∀ a < memSize, m.read a = m'.read a) : m = m' := by
  induction m generalizing m' with
  | nil =>
    cases m' with
    | nil => rfl
    | cons q rest' =>
      obtain ⟨b, w⟩ := q
      have hq := h'.2 (b, w) List.mem_cons_self
      have := heq b hq.1
      simp only [read, if_true] at this
      exact absurd this.symm hq.2
  | cons p rest ih =>
    obtain ⟨a, v⟩ := p
    have hp := h.2 (a, v) List.mem_cons_self
    obtain ⟨ha, hr⟩ := List.pairwise_cons.1 h.1
    cases m' with
    | nil =>
      have := heq a hp.1
      simp only [read, if_true] at this
      exact absurd this hp.2
    | cons q rest' =>
      obtain ⟨b, w⟩ := q
      have hq := h'.2 (b, w) List.mem_cons_self
      obtain ⟨hb, hr'⟩ := List.pairwise_cons.1 h'.1
      have below : ∀ {c : Nat} {l : Memory}, (∀ x ∈ l, c < x.1) → l.read c = unlisted c := read_below
      have hab : a = b := by
        rcases Nat.lt_trichotomy a b with hlt | rfl | hlt
        · have hea := heq a hp.1
          rw [read, if_pos rfl, below (l := (b, w) :: rest')] at hea
          · exact absurd hea hp.2
          · intro x hx
            rcases List.mem_cons.1 hx with rfl | hx
            · exact hlt
            · exact Nat.lt_trans hlt (hb x hx)
        · rfl
        · have hea := heq b hq.1
          rw [below (l := (a, v) :: rest), read, if_pos rfl] at hea
          · exact absurd hea.symm hq.2
          · intro x hx
            rcases List.mem_cons.1 hx with rfl | hx
            · exact hlt
            · exact Nat.lt_trans hlt (ha x hx)
      subst hab
      have hvw : v = w := by simpa [read] using heq a hp.1
      subst hvw
      congr 1
      refine ih ⟨hr, fun x hx => h.2 x (List.mem_cons_of_mem _ hx)⟩
        ⟨hr', fun x hx => h'.2 x (List.mem_cons_of_mem _ hx)⟩ fun c hc => ?_
      by_cases hca : a = c
      · subst hca
        rw [below ha, below hb]
      · simpa [read, hca] using heq c hc

end Sys2Proof.Machine
end

