-- ==== Sys2Proof/Laws/Ops.lean ====
section
/-! SUPPORT. What each shared operation can do, said once: the range check, the call stack, key numbers, the flag-then-result shape, the register transfers and the timer tick. -/

namespace Sys2Proof.Machine

@[simp] theorem zextAddr_toNat (nnn : Addr12) : (zextAddr nnn).toNat = nnn.toNat := by
  have := nnn.isLt
  simp only [zextAddr, BitVec.toNat_setWidth]
  omega

@[simp] theorem zextByte_toNat (v : Byte) : (zextByte v).toNat = v.toNat := by
  have := v.isLt
  simp only [zextByte, BitVec.toNat_setWidth]
  omega

@[simp] theorem tickDown_toNat (t : Byte) : (tickDown t).toNat = t.toNat - 1 := by
  have := t.isLt
  unfold tickDown
  split
  · next h => simp [h]
  · next h =>
    have : t.toNat ≠ 0 := fun h0 => h (BitVec.eq_of_toNat_eq h0)
    rw [BitVec.toNat_sub]
    simp only [BitVec.ofNat_eq_ofNat, BitVec.toNat_ofNat]
    omega

@[simp] theorem flagByte_toNat (c : Bool) : (flagByte c).toNat = if c then 1 else 0 := by
  cases c <;> rfl

namespace State

/-- The range check passes exactly when the access is in range. -/
theorem rangeFault_eq_none (s : State) (base count : Nat) :
    s.rangeFault base count = none ↔ s.inRange base count := by
  unfold rangeFault inRange
  cases s.cfg.memOob
  · simp
  · simp [memSize, Decidable.or_iff_not_imp_left]

/-- When it does not pass, the policy is `fault` and the record holds the first out-of-range address. -/
theorem rangeFault_eq_some (s : State) (base count : Nat) (a : Nat) :
    s.rangeFault base count = some a ↔
      s.cfg.memOob = .fault ∧ 0 < count ∧ 4096 < base + count ∧ a = max base 4096 := by
  unfold rangeFault
  cases s.cfg.memOob <;> simp [Nat.pos_iff_ne_zero, eq_comm, and_assoc]

/-- A memory instruction has its effect, or is halted before its first access. -/
theorem access_cases (s : State) (base count : Nat) (i : Instr) (effect : State → State) :
    (s.inRange base count ∧ s.access base count i effect = effect s) ∨
    (¬ s.inRange base count ∧ s.cfg.memOob = .fault ∧ 0 < count ∧ 4096 < base + count ∧
      s.access base count i effect = s.raise (.addressOutOfRange (max base 4096)) i) := by
  unfold access
  cases h : s.rangeFault base count with
  | none => exact .inl ⟨(rangeFault_eq_none ..).1 h, rfl⟩
  | some a =>
    obtain ⟨hp, hc, hr, rfl⟩ := (rangeFault_eq_some ..).1 h
    exact .inr ⟨fun hin => by simp [(rangeFault_eq_none ..).2 hin] at h, hp, hc, hr, rfl⟩

theorem access_inRange {s : State} {base count : Nat} (h : s.inRange base count) (i : Instr)
    (effect : State → State) : s.access base count i effect = effect s := by
  rw [access, (rangeFault_eq_none ..).2 h]

theorem access_outOfRange {s : State} {base count : Nat} (hp : s.cfg.memOob = .fault) (hc : 0 < count)
    (hr : 4096 < base + count) (i : Instr) (effect : State → State) :
    s.access base count i effect = s.raise (.addressOutOfRange (max base 4096)) i := by
  rw [access, (rangeFault_eq_some ..).2 ⟨hp, hc, hr, rfl⟩]

theorem push_of_room {s : State} (h : s.stack.length < 16) (v : Word) :
    s.push v = some (s.setStack (v :: s.stack)) := if_pos h

theorem push_of_full {s : State} (h : 16 ≤ s.stack.length) (v : Word) : s.push v = none :=
  if_neg (Nat.not_lt.2 h)

theorem pop_cons {s : State} {v : Word} {rest : List Word} (h : s.stack = v :: rest) :
    s.pop = some (v, s.setStack rest) := by
  rw [pop, h]

theorem pop_nil {s : State} (h : s.stack = []) : s.pop = none := by
  rw [pop, h]

/-- A key number in range names that key under either policy. -/
theorem keyNumber_inRange (s : State) {v : Byte} (h : v.toNat < 16) : s.keyNumber v = some ⟨v.toNat, h⟩ := by
  unfold keyNumber
  cases s.cfg.keyIndex
  · simp [h]
  · simp [Nat.mod_eq_of_lt h]

theorem keyNumber_mask {s : State} (h : s.cfg.keyIndex = .mask) (v : Byte) :
    s.keyNumber v = some ⟨v.toNat % 16, Nat.mod_lt _ (by decide)⟩ := by
  rw [keyNumber, h]

theorem keyNumber_outOfRange {s : State} {v : Byte} (hp : s.cfg.keyIndex = .fault) (h : 16 ≤ v.toNat) :
    s.keyNumber v = none := by
  rw [keyNumber, hp]
  exact dif_neg (Nat.not_lt.2 h)

/-- The lowest key down is down, and no lower key is. -/
theorem lowestKeyDown_eq_some {s : State} {k : Key} :
    s.lowestKeyDown = some k ↔ s.keyDown k = true ∧ ∀ j < k, s.keyDown j = false := by
  unfold lowestKeyDown
  rw [List.find?_eq_some_iff_getElem]
  simp only [List.getElem_finRange, List.length_finRange]
  constructor
  · rintro ⟨hk, i, hi, rfl, hlow⟩
    refine ⟨hk, fun j hj => ?_⟩
    simpa using hlow j.val hj
  · rintro ⟨hk, hlow⟩
    exact ⟨hk, k.val, k.isLt, rfl, fun j hj => by simpa using hlow ⟨j, by omega⟩ hj⟩

theorem lowestKeyDown_eq_none {s : State} : s.lowestKeyDown = none ↔ ∀ k, s.keyDown k = false := by
  simp [lowestKeyDown]

/-- The registers after a flag write and a result write (R136): the result where it goes, else the flag
in VF, else nothing new. -/
theorem flagThenResult_getV (s : State) (x y q : Reg) (flag result : Byte → Byte → Byte) :
    (s.flagThenResult x y flag result).getV q =
      let f := flag (s.getV x) (s.getV y)
      if q = x then
        match s.cfg.aluAlias with
        | .sequential => result (if x = VF then f else s.getV x) (if y = VF then f else s.getV y)
        | .latched => result (s.getV x) (s.getV y)
      else if q = VF then f else s.getV q := by
  unfold flagThenResult
  cases s.cfg.aluAlias <;> simp only [getV_setV]

/-- It writes registers and nothing else. -/
theorem flagThenResult_eq (s : State) (x y : Reg) (flag result : Byte → Byte → Byte) :
    s.flagThenResult x y flag result = { s with V := (s.flagThenResult x y flag result).V } := by
  unfold flagThenResult
  cases s.cfg.aluAlias <;> rfl

/-- The end of a step ticks a running engine and leaves a halted one. -/
theorem endStep_running {s : State} (h : s.status = .running) : s.endStep = s.timerTick := by
  rw [endStep, h]

theorem endStep_halted {s : State} {r : FaultRecord} (h : s.status = .halted r) : s.endStep = s := by
  rw [endStep, h]

/-- A fold of register writes whose bytes do not depend on the registers. -/
theorem foldl_setV_mem (l : List Reg) (s : State) :
    l.foldl (fun t r => t.setV r (t.readByte (t.I.toNat + r.val))) s =
      { s with V := (l.foldl (fun t r => t.setV r (t.readByte (t.I.toNat + r.val))) s).V } := by
  induction l generalizing s with
  | nil => rfl
  | cons r l ih => exact ih (s.setV r (s.readByte (s.I.toNat + r.val)))

theorem foldl_setV_getV (l : List Reg) (s : State) (q : Reg) :
    (l.foldl (fun t r => t.setV r (t.readByte (t.I.toNat + r.val))) s).getV q =
      if q ∈ l then s.readByte (s.I.toNat + q.val) else s.getV q := by
  induction l generalizing s with
  | nil => simp
  | cons r l ih =>
    rw [List.foldl_cons, ih]
    by_cases hq : q ∈ l
    · simp [hq]
    · by_cases hr : q = r <;> simp [hq, hr, getV_setV]

/-- `Fx65`'s transfer writes registers and nothing else. -/
theorem loadRegs_eq (s : State) (x : Reg) : s.loadRegs x = { s with V := (s.loadRegs x).V } :=
  foldl_setV_mem _ s

end State

@[simp] theorem mem_regsUpTo (x q : Reg) : q ∈ regsUpTo x ↔ q.val ≤ x.val := by
  simp [regsUpTo]

/-- V0 to Vx come from memory, the others stay (R165). -/
theorem State.loadRegs_getV (s : State) (x q : Reg) :
    (s.loadRegs x).getV q = if q.val ≤ x.val then s.readByte (s.I.toNat + q.val) else s.getV q := by
  rw [loadRegs, foldl_setV_getV]
  simp

/-- V0 to Vx as a list: x + 1 registers, the k-th is Vk (R164). -/
theorem regsUpTo_eq (x : Reg) :
    regsUpTo x = List.ofFn (fun k : Fin (x.val + 1) => (⟨k.val, by omega⟩ : Reg)) := by
  revert x
  decide

end Sys2Proof.Machine
end

