-- ==== Sys2Proof/Laws/Display.lean ====
section
/-! SUPPORT. The pixels of the framebuffer under one flip, one sprite row and a whole sprite. -/

namespace Sys2Proof.Machine

theorem fbPixel_fbFlip (fb : Framebuffer) (px qx : Fin 64) (py qy : Fin 32) :
    fbPixel (fbFlip fb px py) qx qy = (fbPixel fb qx qy ^^ decide (qx = px ∧ qy = py)) := by
  unfold fbPixel fbFlip
  simp only [Vector.get_eq_getElem, Vector.getElem_set]
  by_cases hy : qy = py
  · subst hy
    simp only [if_true, BitVec.getLsbD_xor, and_true]
    congr 1
    simp only [BitVec.getLsbD_shiftLeft, BitVec.getLsbD_one, Fin.ext_iff]
    have := qx.isLt
    have := px.isLt
    by_cases h : qx.val = px.val <;> simp [h]
    omega
  · have : ¬ py.val = qy.val := fun h => hy (Fin.ext h.symm)
    simp [this, hy]

@[simp] theorem fbPixel_clear (px : Fin 64) (py : Fin 32) :
    fbPixel (Vector.replicate 32 0) px py = false := by
  simp [fbPixel, Vector.get_eq_getElem]

/-- Two framebuffers with the same pixels are the same. -/
theorem framebuffer_ext {fb fb' : Framebuffer} (h : ∀ px py, fbPixel fb px py = fbPixel fb' px py) :
    fb = fb' := by
  apply Vector.ext
  intro py hpy
  apply BitVec.eq_of_getLsbD_eq
  intro px hpx
  exact h ⟨px, hpx⟩ ⟨py, hpy⟩

theorem drawBit_pixel (px qx : Fin 64) (py qy : Fin 32) (bit : Bool) (d : Drawing) :
    fbPixel (drawBit px py bit d).fb qx qy =
      (fbPixel d.fb qx qy ^^ (bit && decide (qx = px ∧ qy = py))) := by
  cases bit <;> simp [drawBit, fbPixel_fbFlip]

theorem drawBit_hit (px : Fin 64) (py : Fin 32) (bit : Bool) (d : Drawing) :
    (drawBit px py bit d).hit = (d.hit || (bit && fbPixel d.fb px py)) := by
  cases bit <;> simp [drawBit]

/-- A sequence of sprite bits, each with the pixel it falls on. -/
def drawBits (l : List (Fin 64 × Fin 32 × Bool)) (d : Drawing) : Drawing :=
  l.foldl (fun e p => drawBit p.1 p.2.1 p.2.2 e) d

/-- When no two bits fall on one pixel, a pixel is flipped exactly when a set bit falls on it. -/
theorem drawBits_pixel {l : List (Fin 64 × Fin 32 × Bool)} (d : Drawing) (qx : Fin 64) (qy : Fin 32)
    (hl : l.Pairwise (fun p q => (p.1, p.2.1) ≠ (q.1, q.2.1))) :
    fbPixel (drawBits l d).fb qx qy = (fbPixel d.fb qx qy ^^ decide ((qx, qy, true) ∈ l)) := by
  induction l generalizing d with
  | nil => simp [drawBits]
  | cons p l ih =>
    obtain ⟨px, py, bit⟩ := p
    obtain ⟨hp, hl⟩ := List.pairwise_cons.1 hl
    have := ih (drawBit px py bit d) hl
    rw [drawBits] at this ⊢
    rw [List.foldl_cons, this, drawBit_pixel, Bool.xor_assoc]
    congr 1
    by_cases heq : qx = px ∧ qy = py
    · obtain ⟨rfl, rfl⟩ := heq
      have hnot : (qx, qy, true) ∉ l := fun hmem => hp _ hmem rfl
      cases bit <;> simp [hnot]
    · cases bit <;> simp [heq]

/-- A collision is reported exactly when a set bit falls on a pixel that was set before the drawing. -/
theorem drawBits_hit {l : List (Fin 64 × Fin 32 × Bool)} (d : Drawing)
    (hl : l.Pairwise (fun p q => (p.1, p.2.1) ≠ (q.1, q.2.1))) :
    (drawBits l d).hit = (d.hit || l.any (fun p => p.2.2 && fbPixel d.fb p.1 p.2.1)) := by
  induction l generalizing d with
  | nil => simp [drawBits]
  | cons p l ih =>
    obtain ⟨px, py, bit⟩ := p
    obtain ⟨hp, hl⟩ := List.pairwise_cons.1 hl
    have := ih (drawBit px py bit d) hl
    rw [drawBits] at this ⊢
    rw [List.foldl_cons, this, drawBit_hit, List.any_cons, Bool.or_assoc]
    congr 2
    rw [Bool.eq_iff_iff, List.any_eq_true, List.any_eq_true]
    refine exists_congr fun q => and_congr_right fun hq => ?_
    have hne := hp q hq
    rw [drawBit_pixel]
    have : ¬ (q.1 = px ∧ q.2.1 = py) := fun ⟨h1, h2⟩ => hne (by simp [h1, h2])
    simp [this]

/-- The bits of a sprite in drawing order, each with its pixel (R101). -/
def spriteBits (cx cy : Byte) (bytes : Nat → Byte) (n : Nat) : List (Fin 64 × Fin 32 × Bool) :=
  (List.range n).flatMap fun row => (List.range 8).map fun col =>
    (spriteColumn cx col, spriteRow cy row, (bytes row).getLsbD (7 - col))

theorem drawSprite_eq (cx cy : Byte) (bytes : Nat → Byte) (n : Nat) (d : Drawing) :
    drawSprite cx cy bytes n d = drawBits (spriteBits cx cy bytes n) d := by
  simp only [drawSprite, drawBits, spriteBits, List.foldl_flatMap, List.foldl_map, drawRow]

/-- Within one sprite no pixel is touched twice (R101). -/
theorem spriteBits_distinct (cx cy : Byte) (bytes : Nat → Byte) {n : Nat} (hn : n ≤ 32) :
    (spriteBits cx cy bytes n).Pairwise (fun p q => (p.1, p.2.1) ≠ (q.1, q.2.1)) := by
  have hrange : ∀ m : Nat, (List.range m).Pairwise (· < ·) := fun m => List.pairwise_lt_range
  rw [spriteBits, List.pairwise_flatMap]
  constructor
  · intro row hrow
    rw [List.pairwise_map]
    refine List.Pairwise.imp_of_mem ?_ (hrange 8)
    intro a b ha hb hab heq
    have := congrArg (fun p : Fin 64 × Fin 32 => p.1.val) heq
    simp only [spriteColumn, List.mem_range] at this ha hb
    omega
  · refine List.Pairwise.imp_of_mem ?_ (hrange n)
    intro a b ha hb hab p hp q hq heq
    simp only [List.mem_map, List.mem_range] at hp hq ha hb
    obtain ⟨c, -, rfl⟩ := hp
    obtain ⟨e, -, rfl⟩ := hq
    have := congrArg (fun p : Fin 64 × Fin 32 => p.2.val) heq
    simp only [spriteRow] at this
    omega

/-- The pixel in column `qx` and row `qy` is flipped by the sprite (R101). -/
def spriteHas (cx cy : Byte) (bytes : Nat → Byte) (n : Nat) (qx : Fin 64) (qy : Fin 32) : Prop :=
  ∃ row < n, ∃ col < 8, (bytes row).getLsbD (7 - col) = true ∧
    qx = spriteColumn cx col ∧ qy = spriteRow cy row

theorem mem_spriteBits (cx cy : Byte) (bytes : Nat → Byte) (n : Nat) (qx : Fin 64) (qy : Fin 32) :
    (qx, qy, true) ∈ spriteBits cx cy bytes n ↔ spriteHas cx cy bytes n qx qy := by
  simp only [spriteBits, spriteHas, List.mem_flatMap, List.mem_range, List.mem_map, Prod.mk.injEq]
  refine exists_congr fun row => and_congr_right fun _ => exists_congr fun col => and_congr_right fun _ => ?_
  constructor
  · rintro ⟨rfl, rfl, h⟩; exact ⟨h, rfl, rfl⟩
  · rintro ⟨h, rfl, rfl⟩; exact ⟨rfl, rfl, h⟩

/-- What a sprite does to a pixel (R101). -/
theorem drawSprite_pixel (cx cy : Byte) (bytes : Nat → Byte) {n : Nat} (hn : n ≤ 32) (d : Drawing)
    (qx : Fin 64) (qy : Fin 32) :
    fbPixel (drawSprite cx cy bytes n d).fb qx qy = true ↔
      (fbPixel d.fb qx qy = true ∧ ¬ spriteHas cx cy bytes n qx qy) ∨
      (fbPixel d.fb qx qy = false ∧ spriteHas cx cy bytes n qx qy) := by
  rw [drawSprite_eq, drawBits_pixel _ _ _ (spriteBits_distinct cx cy bytes hn), ← mem_spriteBits]
  cases fbPixel d.fb qx qy <;> simp

/-- When a sprite collides (R101). -/
theorem drawSprite_hit (cx cy : Byte) (bytes : Nat → Byte) {n : Nat} (hn : n ≤ 32) (d : Drawing) :
    (drawSprite cx cy bytes n d).hit = true ↔
      d.hit = true ∨ ∃ qx qy, spriteHas cx cy bytes n qx qy ∧ fbPixel d.fb qx qy = true := by
  rw [drawSprite_eq, drawBits_hit _ (spriteBits_distinct cx cy bytes hn), Bool.or_eq_true,
    List.any_eq_true]
  refine or_congr_right ⟨?_, ?_⟩
  · rintro ⟨⟨qx, qy, bit⟩, hmem, hbit⟩
    obtain ⟨rfl, hp⟩ := Bool.and_eq_true_iff.1 hbit
    exact ⟨qx, qy, (mem_spriteBits ..).1 hmem, hp⟩
  · rintro ⟨qx, qy, hs, hp⟩
    exact ⟨(qx, qy, true), (mem_spriteBits ..).2 hs, by simpa using hp⟩

end Sys2Proof.Machine
end

