-- ==== Sys2Proof/Laws/PerInstr.lean ====
section
/-! SUPPORT. The family of statements made once for each instruction: its word matches its row of the opcode table. -/

namespace Sys2Proof.Laws.EncodingMatchesRow

/-- The word of the instruction matches its row of R75 by R74's rule `(w & mask) == match`. -/
def Statement (i : Instr) : Prop := i.row.matchesWord (encode i) = true

/-! ### The packs under the masks of R75 -/

theorem append_and_append {v w : Nat} (a c : BitVec v) (b d : BitVec w) :
    (a ++ b) &&& (c ++ d) = (a &&& c) ++ (b &&& d) := by
  ext i hi
  simp only [BitVec.getElem_and, BitVec.getElem_append]
  split <;> rfl

theorem packNNN_mask (op : BitVec 4) (nnn : Addr12) : packNNN op nnn &&& 0xF000 = packNNN op 0 := by
  change (op ++ nnn) &&& (0xF#4 ++ 0#12) = op ++ 0#12
  rw [append_and_append]
  congr 1
  · exact BitVec.and_allOnes
  · exact BitVec.and_zero

theorem packXKK_mask (op : BitVec 4) (x : Reg) (kk : Byte) :
    packXKK op x kk &&& 0xF000 = packXKK op 0 0 := by
  change ((op ++ BitVec.ofFin (w := 4) x) ++ kk) &&& ((0xF#4 ++ 0#4) ++ 0#8) = (op ++ 0#4) ++ 0#8
  rw [append_and_append, append_and_append]
  congr 1
  · congr 1
    · exact BitVec.and_allOnes
    · exact BitVec.and_zero
  · exact BitVec.and_zero

theorem packXKK_maskLow (op : BitVec 4) (x : Reg) (kk : Byte) :
    packXKK op x kk &&& 0xF0FF = packXKK op 0 kk := by
  change ((op ++ BitVec.ofFin (w := 4) x) ++ kk) &&& ((0xF#4 ++ 0#4) ++ 0xFF#8) = (op ++ 0#4) ++ kk
  rw [append_and_append, append_and_append]
  congr 1
  · congr 1
    · exact BitVec.and_allOnes
    · exact BitVec.and_zero
  · exact BitVec.and_allOnes

theorem packXYN_mask (op : BitVec 4) (x y : Reg) (n : BitVec 4) :
    packXYN op x y n &&& 0xF000 = packXYN op 0 0 0 := by
  change (((op ++ BitVec.ofFin (w := 4) x) ++ BitVec.ofFin (w := 4) y) ++ n) &&&
    (((0xF#4 ++ 0#4) ++ 0#4) ++ 0#4) = ((op ++ 0#4) ++ 0#4) ++ 0#4
  rw [append_and_append, append_and_append, append_and_append]
  congr 1
  · congr 1
    · congr 1
      · exact BitVec.and_allOnes
      · exact BitVec.and_zero
    · exact BitVec.and_zero
  · exact BitVec.and_zero

theorem packXYN_maskLow (op : BitVec 4) (x y : Reg) (n : BitVec 4) :
    packXYN op x y n &&& 0xF00F = packXYN op 0 0 n := by
  change (((op ++ BitVec.ofFin (w := 4) x) ++ BitVec.ofFin (w := 4) y) ++ n) &&&
    (((0xF#4 ++ 0#4) ++ 0#4) ++ 0xF#4) = ((op ++ 0#4) ++ 0#4) ++ n
  rw [append_and_append, append_and_append, append_and_append]
  congr 1
  · congr 1
    · congr 1
      · exact BitVec.and_allOnes
      · exact BitVec.and_zero
    · exact BitVec.and_zero
  · exact BitVec.and_allOnes

/-! ### One lemma an instruction -/

theorem cls : Statement .cls := by
  rfl

theorem ret : Statement .ret := by
  rfl

theorem jp (nnn : Addr12) : Statement (.jp nnn) := by
  simp only [Statement, OpcodeRow.matchesWord, Instr.row, encode, packNNN_mask]
  rfl

theorem call (nnn : Addr12) : Statement (.call nnn) := by
  simp only [Statement, OpcodeRow.matchesWord, Instr.row, encode, packNNN_mask]
  rfl

theorem seImm (x : Reg) (kk : Byte) : Statement (.seImm x kk) := by
  simp only [Statement, OpcodeRow.matchesWord, Instr.row, encode, packXKK_mask]
  rfl

theorem sneImm (x : Reg) (kk : Byte) : Statement (.sneImm x kk) := by
  simp only [Statement, OpcodeRow.matchesWord, Instr.row, encode, packXKK_mask]
  rfl

theorem seReg (x y : Reg) : Statement (.seReg x y) := by
  simp only [Statement, OpcodeRow.matchesWord, Instr.row, encode, packXYN_maskLow]
  rfl

theorem ldImm (x : Reg) (kk : Byte) : Statement (.ldImm x kk) := by
  simp only [Statement, OpcodeRow.matchesWord, Instr.row, encode, packXKK_mask]
  rfl

theorem addImm (x : Reg) (kk : Byte) : Statement (.addImm x kk) := by
  simp only [Statement, OpcodeRow.matchesWord, Instr.row, encode, packXKK_mask]
  rfl

theorem ldReg (x y : Reg) : Statement (.ldReg x y) := by
  simp only [Statement, OpcodeRow.matchesWord, Instr.row, encode, packXYN_maskLow]
  rfl

theorem orReg (x y : Reg) : Statement (.orReg x y) := by
  simp only [Statement, OpcodeRow.matchesWord, Instr.row, encode, packXYN_maskLow]
  rfl

theorem andReg (x y : Reg) : Statement (.andReg x y) := by
  simp only [Statement, OpcodeRow.matchesWord, Instr.row, encode, packXYN_maskLow]
  rfl

theorem xorReg (x y : Reg) : Statement (.xorReg x y) := by
  simp only [Statement, OpcodeRow.matchesWord, Instr.row, encode, packXYN_maskLow]
  rfl

theorem addReg (x y : Reg) : Statement (.addReg x y) := by
  simp only [Statement, OpcodeRow.matchesWord, Instr.row, encode, packXYN_maskLow]
  rfl

theorem sub (x y : Reg) : Statement (.sub x y) := by
  simp only [Statement, OpcodeRow.matchesWord, Instr.row, encode, packXYN_maskLow]
  rfl

theorem shr (x y : Reg) : Statement (.shr x y) := by
  simp only [Statement, OpcodeRow.matchesWord, Instr.row, encode, packXYN_maskLow]
  rfl

theorem subn (x y : Reg) : Statement (.subn x y) := by
  simp only [Statement, OpcodeRow.matchesWord, Instr.row, encode, packXYN_maskLow]
  rfl

theorem shl (x y : Reg) : Statement (.shl x y) := by
  simp only [Statement, OpcodeRow.matchesWord, Instr.row, encode, packXYN_maskLow]
  rfl

theorem sneReg (x y : Reg) : Statement (.sneReg x y) := by
  simp only [Statement, OpcodeRow.matchesWord, Instr.row, encode, packXYN_maskLow]
  rfl

theorem ldI (nnn : Addr12) : Statement (.ldI nnn) := by
  simp only [Statement, OpcodeRow.matchesWord, Instr.row, encode, packNNN_mask]
  rfl

theorem jpOff (nnn : Addr12) : Statement (.jpOff nnn) := by
  simp only [Statement, OpcodeRow.matchesWord, Instr.row, encode, packNNN_mask]
  rfl

theorem rnd (x : Reg) (kk : Byte) : Statement (.rnd x kk) := by
  simp only [Statement, OpcodeRow.matchesWord, Instr.row, encode, packXKK_mask]
  rfl

theorem drw (x y : Reg) (n : Height) : Statement (.drw x y n) := by
  simp only [Statement, OpcodeRow.matchesWord, Instr.row, encode, packXYN_mask]
  rfl

theorem skp (x : Reg) : Statement (.skp x) := by
  simp only [Statement, OpcodeRow.matchesWord, Instr.row, encode, packXKK_maskLow]
  rfl

theorem sknp (x : Reg) : Statement (.sknp x) := by
  simp only [Statement, OpcodeRow.matchesWord, Instr.row, encode, packXKK_maskLow]
  rfl

theorem ldFromDT (x : Reg) : Statement (.ldFromDT x) := by
  simp only [Statement, OpcodeRow.matchesWord, Instr.row, encode, packXKK_maskLow]
  rfl

theorem waitKey (x : Reg) : Statement (.waitKey x) := by
  simp only [Statement, OpcodeRow.matchesWord, Instr.row, encode, packXKK_maskLow]
  rfl

theorem ldToDT (x : Reg) : Statement (.ldToDT x) := by
  simp only [Statement, OpcodeRow.matchesWord, Instr.row, encode, packXKK_maskLow]
  rfl

theorem ldToST (x : Reg) : Statement (.ldToST x) := by
  simp only [Statement, OpcodeRow.matchesWord, Instr.row, encode, packXKK_maskLow]
  rfl

theorem addI (x : Reg) : Statement (.addI x) := by
  simp only [Statement, OpcodeRow.matchesWord, Instr.row, encode, packXKK_maskLow]
  rfl

theorem ldFont (x : Reg) : Statement (.ldFont x) := by
  simp only [Statement, OpcodeRow.matchesWord, Instr.row, encode, packXKK_maskLow]
  rfl

theorem bcd (x : Reg) : Statement (.bcd x) := by
  simp only [Statement, OpcodeRow.matchesWord, Instr.row, encode, packXKK_maskLow]
  rfl

theorem store (x : Reg) : Statement (.store x) := by
  simp only [Statement, OpcodeRow.matchesWord, Instr.row, encode, packXKK_maskLow]
  rfl

theorem load (x : Reg) : Statement (.load x) := by
  simp only [Statement, OpcodeRow.matchesWord, Instr.row, encode, packXKK_maskLow]
  rfl

end Sys2Proof.Laws.EncodingMatchesRow
end

