-- ==== Sys2Proof/Laws/Step.lean ====
section
/-! SUPPORT. What a step can do, said once: on a halted engine nothing, else a fetch fault, a report of an unknown word, or the execute phase of the decoded instruction. -/

namespace Sys2Proof.Machine

/-- The cases of a step that answers a next state. -/
theorem step_cases {s t : State} (h : step s = .next t) :
    (∃ r, s.status = .halted r ∧ t = s.quiet) ∨
    (s.status = .running ∧ s.cfg.memOob = .fault ∧ 4096 < s.pc.toNat + 2 ∧
      t = s.quiet.fetchFault (max s.pc.toNat 4096)) ∨
    (s.status = .running ∧ s.inRange s.pc.toNat 2 ∧ ∃ w, decode s.fetchWord = .unknown w ∧
      t = (s.quiet.advance.reportUnknown w).endStep) ∨
    (s.status = .running ∧ s.inRange s.pc.toNat 2 ∧ ∃ i u, decode s.fetchWord = .instr i ∧
      exec i s.quiet.advance = .next u ∧ t = u.endStep) := by
  unfold step at h
  cases hst : s.status with
  | halted r =>
    simp only [hst, Host.Outcome.next.injEq] at h
    exact .inl ⟨r, rfl, h.symm⟩
  | running =>
    simp only [hst] at h
    cases hr : s.rangeFault s.pc.toNat 2 with
    | some a =>
      obtain ⟨hp, -, hlt, rfl⟩ := (State.rangeFault_eq_some ..).1 hr
      simp only [hr, Host.Outcome.next.injEq] at h
      exact .inr (.inl ⟨rfl, hp, hlt, h.symm⟩)
    | none =>
      have hin := (State.rangeFault_eq_none ..).1 hr
      simp only [hr] at h
      cases hd : decode s.fetchWord with
      | unknown w =>
        simp only [hd, Host.Outcome.next.injEq] at h
        exact .inr (.inr (.inl ⟨rfl, hin, w, rfl, h.symm⟩))
      | instr i =>
        simp only [hd] at h
        cases he : exec i s.quiet.advance with
        | fault r => exact nomatch r
        | refused r =>
          rw [he] at h
          exact absurd h (by simp)
        | next u =>
          simp only [he, Host.Outcome.next.injEq] at h
          exact .inr (.inr (.inr ⟨rfl, hin, i, u, rfl, he, h.symm⟩))

theorem step_halted {s : State} {r : FaultRecord} (h : s.status = .halted r) : step s = .next s.quiet := by
  simp only [step, h]

/-- A step is the execute phase of the decoded instruction, and the end of the step. -/
theorem step_instr {s u : State} {i : Instr} (h : s.status = .running) (hin : s.inRange s.pc.toNat 2)
    (hd : decode s.fetchWord = .instr i) (he : exec i s.quiet.advance = .next u) :
    step s = .next u.endStep := by
  simp only [step, h, (State.rangeFault_eq_none ..).2 hin, hd, he]

theorem step_unknown {s : State} {w : Word} (h : s.status = .running) (hin : s.inRange s.pc.toNat 2)
    (hd : decode s.fetchWord = .unknown w) :
    step s = .next (s.quiet.advance.reportUnknown w).endStep := by
  simp only [step, h, (State.rangeFault_eq_none ..).2 hin, hd]

theorem step_fetchFault {s : State} (h : s.status = .running) (hp : s.cfg.memOob = .fault)
    (hlt : 4096 < s.pc.toNat + 2) : step s = .next (s.quiet.fetchFault (max s.pc.toNat 4096)) := by
  simp only [step, h, (State.rangeFault_eq_some ..).2 ⟨hp, Nat.two_pos, hlt, rfl⟩]

/-- A property that host actions and steps keep holds after every run. -/
theorem runEvents_induction {P : State → Prop} (hhost : ∀ a s, P s → P (hostAct a s))
    (hstep : ∀ s t, P s → step s = .next t → P t) {es : List Event} {s t : State} (h : P s)
    (hrun : runEvents es s = .next t) : P t := by
  induction es generalizing s with
  | nil =>
    simp only [runEvents, Host.Outcome.next.injEq] at hrun
    exact hrun ▸ h
  | cons e es ih =>
    cases e with
    | host a => exact ih (hhost a s h) hrun
    | step =>
      rw [runEvents] at hrun
      cases hs : step s with
      | next u => exact ih (hstep s u h hs) (by simpa only [hs] using hrun)
      | fault r => exact nomatch r
      | refused r => simp [hs] at hrun

end Sys2Proof.Machine
end

