-- ==== Sys2Proof/Tests/Slice0.lean ====
section
/-! SUPPORT. Small tests against the spec's own examples and vectors (files 41 to 45 and 95 of spec/), and a witness for every statement that has hypotheses. -/

namespace Sys2Proof.Tests
open Sys2Proof.Machine

/-! ### Helpers -/

/-- The state an answer goes on to. -/
def after : Answer → Option State
  | .next t => some t
  | .fault _ => none
  | .refused _ => none

/-- A state with these registers loaded. -/
def withRegs (s : State) (l : List (Reg × Byte)) : State := l.foldl (fun t p => t.setV p.1 p.2) s

/-- A fresh engine about to execute the word `w` at `pc`, with these registers. -/
def fresh (pc : Word) (w : Nat) (l : List (Reg × Byte)) : State :=
  withRegs ({ State.reset with pc := pc }.withFetchWord 16 w) l

/-- What one step from `s` leaves, seen through `f`. -/
def see {α : Type} (s : State) (f : State → α) : Option α := (after (step s)).map f

/-- The decided parameters with all quirks on. -/
def quirky : Config := .decided { shiftUsesVy := true, bnnnUsesVx := true, fx55IncreasesI := true }

/-- The four named alternatives of R6, quirks off. -/
def alternative : Config :=
  { quirks := .allOff, memOob := .fault, keyIndex := .mask, aluAlias := .latched, fx29Base := .at050 }

def isHalted (c : FatalCause) (a : Word) (w : Option Word) (s : State) : Bool :=
  s.status == .halted { cause := c, A := a, w := w }

/-! ### WellFormed: each check refuses an ill-formed term -/

/-- A match bit outside the mask (R74). -/
theorem test_row_wf_refuses : OpcodeRow.wf ⟨"5xy1", 0xF00F, 0x5011⟩ = false := by decide

theorem test_row_wf_table : opcodeTable.all OpcodeRow.wf = true := by decide

/-- 79 bytes are no font table (R53). -/
theorem test_font_wf_refuses : fontTableWf (List.replicate 79 0) = false := by decide

theorem test_font_wf_default : fontTableWf defaultFont = true := by decide

/-- 3585 bytes do not fit, 3584 do (R232). -/
theorem test_image_wf_refuses :
    imageWf (List.replicate 3585 0) = false ∧ imageWf (List.replicate 3584 0) = true := by
  constructor <;> rw [imageWf, List.length_replicate] <;> rfl

/-- `load_program` of 3585 bytes is an error with that length (R232, the table of 60_exceptions.md). -/
theorem test_load_too_large :
    State.reset.loadProgram (List.replicate 3585 0) = .programTooLarge 3585 := by
  rw [State.loadProgram, if_neg (by rw [test_image_wf_refuses.1]; decide), List.length_replicate]

/-! ### Decoding -/

/-- The words 00E0, 00EE, 1208 and so on, bit by bit from the patterns of R75. -/
theorem test_decode_display_and_control_words :
    decode 0b0000000011100000 = .instr (.cls) ∧
    decode 0b0000000011101110 = .instr (.ret) ∧
    decode 0b0001001000001000 = .instr (.jp 0x208) ∧
    decode 0b0010001000010000 = .instr (.call 0x210) ∧
    decode 0b0011000100000000 = .instr (.seImm 1 0x00) ∧
    decode 0b0100001000000111 = .instr (.sneImm 2 0x07) ∧
    decode 0b0101001101000000 = .instr (.seReg 3 4) ∧
    decode 0b1001001101000000 = .instr (.sneReg 3 4) ∧
    decode 0b1011001000100000 = .instr (.jpOff 0x220) ∧
    decode 0b1101000100100101 = .instr (.drw 1 2 5) := by decide

/-- The words 6A42, 7002, 8150 and so on, bit by bit from the patterns of R75. -/
theorem test_decode_alu_words :
    decode 0b0110101001000010 = .instr (.ldImm 0xA 0x42) ∧
    decode 0b0111000000000010 = .instr (.addImm 0 0x02) ∧
    decode 0b1000000101010000 = .instr (.ldReg 1 5) ∧
    decode 0b1000000100100001 = .instr (.orReg 1 2) ∧
    decode 0b1000000100100010 = .instr (.andReg 1 2) ∧
    decode 0b1000000100100011 = .instr (.xorReg 1 2) ∧
    decode 0b1000000100100100 = .instr (.addReg 1 2) ∧
    decode 0b1000000100100101 = .instr (.sub 1 2) ∧
    decode 0b1000000100100110 = .instr (.shr 1 2) ∧
    decode 0b1000000100100111 = .instr (.subn 1 2) ∧
    decode 0b1000000100101110 = .instr (.shl 1 2) ∧
    decode 0b1100001100001111 = .instr (.rnd 3 0x0F) := by decide

/-- The words A300, F21E, F029 and so on, bit by bit from the patterns of R75. -/
theorem test_decode_index_and_memory_words :
    decode 0b1010001100000000 = .instr (.ldI 0x300) ∧
    decode 0b1111001000011110 = .instr (.addI 2) ∧
    decode 0b1111000000101001 = .instr (.ldFont 0) ∧
    decode 0b1111000000110011 = .instr (.bcd 0) ∧
    decode 0b1111001101010101 = .instr (.store 3) ∧
    decode 0b1111001101100101 = .instr (.load 3) := by decide

/-- The words E19E, E1A1, F307 and so on, bit by bit from the patterns of R75. -/
theorem test_decode_key_and_timer_words :
    decode 0b1110000110011110 = .instr (.skp 1) ∧
    decode 0b1110000110100001 = .instr (.sknp 1) ∧
    decode 0b1111001100000111 = .instr (.ldFromDT 3) ∧
    decode 0b1111000000001010 = .instr (.waitKey 0) ∧
    decode 0b1111001000010101 = .instr (.ldToDT 2) ∧
    decode 0b1111001000011000 = .instr (.ldToST 2) := by decide

/-- Words near a pattern are unknown (vectors T4 to T9). -/
theorem test_decode_unknown_words :
    [0x0000, 0x00E1, 0x0AE0, 0x00FF, 0x0123, 0x5121, 0x8008, 0x800F, 0x9AB1, 0xE09F, 0xF000, 0xF030].all
      (fun w => decode w == .unknown w) = true := by decide

/-- The first byte of a word is its high byte (R58), and the rest of the bytes is handed back. -/
theorem test_decode_bytes : decodeBytes [0x12, 0x08, 0xFF] = .instr (.jp 0x208) [0xFF] ∧
    decodeBytes [0x12] = .truncated := by decide

theorem test_decodeTableWord : decodeTableWord 16 0xA123 = some (.ldI 0x123) ∧
    decodeTableWord 16 0x5121 = none := by decide

/-! ### The step: fetch, unknown words, the tick, a halted engine -/

theorem test_reset_withFetchWord : see (State.reset.withFetchWord 16 0x1208) (·.pc) = some 0x208 := by decide

/-- Vector T2: a fetch across the top of memory. -/
theorem test_fetch_wraps : see (fresh 0x0FFF 0xA123 []) (fun t => (t.I, t.pc)) = some (0x123, 0x1001) := by decide

/-- Vector T2 under the alternative policy. -/
theorem test_fetch_faults : see { fresh 0x0FFF 0xA123 [] with cfg := alternative }
    (fun t => (isHalted (.addressOutOfRange 4096) 0x0FFF none t, t.pc)) = some (true, 0x0FFF) := by decide

/-- Vector T10: an unknown word is reported and the timers tick. -/
theorem test_unknown_word : see { fresh 0x200 0x0123 [] with DT := 3, ST := 1 }
    (fun t => (t.pc, t.DT, t.ST, t.out)) =
      some (0x202, 2, 0, { beep := true, diag := some { A := 0x200, w := 0x0123 } }) := by decide

/-- Vector T11: a halted engine does nothing and has no output. -/
def halted : State :=
  { State.reset with status := .halted { cause := .stackUnderflow, A := 0x200, w := some 0x00EE } }

theorem test_halted_step : step halted = .next halted := rfl

/-! ### Display (vectors T20 to T27) -/

theorem test_cls : see { fresh 0x200 0x00E0 [] with fb := Vector.replicate 32 1 }
    (fun t => (t.fb, t.drawFlag)) = some (Vector.replicate 32 0, true) := by decide

/-- T21 and T22: the sprite wraps on both axes; a pixel that was set collides. -/
theorem test_drw_wraps : see ((fresh 0x200 0xD012 [(0, 60), (1, 31)]).setI 0x300 |>.writeBytes 0x300 [0xFF, 0x80])
    (fun t => (t.fb.get 31, t.fb.get 0, t.getV VF, t.I)) =
      some (0xF00000000000000F, 0x1000000000000000, 0, 0x300) := by decide

/-- T25 and T26: one collision is enough, and the coordinate is read before VF is cleared. -/
theorem test_drw_collides : see ({ fresh 0x200 0xDF11 [(0xF, 5)] with fb := (Vector.replicate 32 0).set 0 0x20 }
      |>.setI 0x300 |>.writeBytes 0x300 [0xC0])
    (fun t => (t.fb.get 0, t.getV VF, t.drawFlag)) = some (0x40, 1, true) := by decide

/-! ### Control flow (vectors T30 to T45) -/

theorem test_jp : see (fresh 0x20E 0x1208 []) (·.pc) = some 0x208 := by decide

theorem test_call : see (fresh 0x204 0x2210 []) (fun t => (t.stack, t.pc)) = some ([0x206], 0x210) := by decide

/-- T33: the 17th nested call. -/
theorem test_call_overflow : see { fresh 0x204 0x2210 [] with stack := List.replicate 16 0x300, DT := 5 }
    (fun t => (isHalted .stackOverflow 0x204 (some 0x2210) t, t.DT)) = some (true, 5) := by decide

theorem test_ret : see { fresh 0x214 0x00EE [] with stack := [0x206, 0x300] }
    (fun t => (t.stack, t.pc)) = some ([0x300], 0x206) := by decide

/-- S8: a return on an empty stack. -/
theorem test_ret_underflow : see (fresh 0x200 0x00EE [])
    (isHalted .stackUnderflow 0x200 (some 0x00EE)) = some true := by decide

/-- T36 and T37. -/
theorem test_se_imm : see (fresh 0x20C 0x3100 []) (·.pc) = some 0x210 ∧
    see (fresh 0x20C 0x3100 [(1, 1)]) (·.pc) = some 0x20E := by decide

/-- T38. -/
theorem test_sne_imm : see (fresh 0x300 0x4207 [(2, 7)]) (·.pc) = some 0x302 ∧
    see (fresh 0x300 0x4208 [(2, 7)]) (·.pc) = some 0x304 := by decide

/-- T39 and T40. -/
theorem test_se_reg : see (fresh 0x200 0x5340 [(3, 9), (4, 9)]) (·.pc) = some 0x204 ∧
    see (fresh 0x200 0x5340 [(3, 1), (4, 2)]) (·.pc) = some 0x202 := by decide

theorem test_sne_reg : see (fresh 0x200 0x9340 [(3, 9), (4, 9)]) (·.pc) = some 0x202 ∧
    see (fresh 0x200 0x9340 [(3, 1), (4, 2)]) (·.pc) = some 0x204 := by decide

/-- T42 and T43. -/
theorem test_jp_off : see { fresh 0x200 0xB220 [(0, 0x04), (2, 0x10)] with cfg := quirky } (·.pc) = some 0x230 ∧
    see (fresh 0x200 0xBFFF [(0, 0xFF)]) (·.pc) = some 0x10FE := by decide

/-! ### ALU (vectors T50 to T80) -/

theorem test_ld_imm : see (fresh 0x200 0x6A42 []) (·.getV 0xA) = some 0x42 := by decide

/-- T51: no carry flag. -/
theorem test_add_imm : see (fresh 0x200 0x7002 [(0, 0xFF), (0xF, 0x33)])
    (fun t => (t.getV 0, t.getV VF)) = some (0x01, 0x33) := by decide

theorem test_ld_reg : see (fresh 0x200 0x8150 [(5, 3)]) (·.getV 1) = some 3 := by decide

/-- T54: VF is not reset. -/
theorem test_or : see (fresh 0x200 0x8121 [(1, 0x0F), (2, 0xF0), (0xF, 0x55)])
    (fun t => (t.getV 1, t.getV VF)) = some (0xFF, 0x55) := by decide

theorem test_and : see (fresh 0x200 0x8122 [(1, 0x3C), (2, 0x0F)]) (·.getV 1) = some 0x0C := by decide

theorem test_xor : see (fresh 0x200 0x8123 [(1, 0xFF), (2, 0x0F)]) (·.getV 1) = some 0xF0 := by decide

/-- S2. -/
theorem test_add_reg : see (fresh 0x200 0x8124 [(1, 0xFF), (2, 0x01)])
      (fun t => (t.getV 1, t.getV VF)) = some (0x00, 1) ∧
    see (fresh 0x200 0x8124 [(1, 0x01), (2, 0x01)]) (fun t => (t.getV 1, t.getV VF)) = some (0x02, 0) := by decide

/-- S3 and T59. -/
theorem test_sub : see (fresh 0x200 0x8125 [(1, 0x05), (2, 0x0A)])
      (fun t => (t.getV 1, t.getV VF)) = some (0xFB, 0) ∧
    see (fresh 0x200 0x8125 [(1, 0x07), (2, 0x07)]) (fun t => (t.getV 1, t.getV VF)) = some (0x00, 0) := by decide

/-- T72 in both alias modes. -/
theorem test_sub_alias : see (fresh 0x200 0x8F15 [(0xF, 0x10), (1, 0x05)]) (·.getV VF) = some 0xFC ∧
    see { fresh 0x200 0x8F15 [(0xF, 0x10), (1, 0x05)] with cfg := alternative } (·.getV VF) = some 0x0B := by decide

/-- T63: quirk off and on. -/
theorem test_shr : see (fresh 0x200 0x8126 [(1, 0x05), (2, 0x80)])
      (fun t => (t.getV 1, t.getV VF)) = some (0x02, 1) ∧
    see { fresh 0x200 0x8126 [(1, 0x05), (2, 0x80)] with cfg := quirky }
      (fun t => (t.getV 1, t.getV VF, t.getV 2)) = some (0x40, 0, 0x80) := by decide

/-- T75 in both alias modes. -/
theorem test_shr_alias : see (fresh 0x200 0x8F06 [(0xF, 0x07)]) (·.getV VF) = some 0x00 ∧
    see { fresh 0x200 0x8F06 [(0xF, 0x07)] with cfg := alternative } (·.getV VF) = some 0x03 := by decide

/-- T61 and T62. -/
theorem test_subn : see (fresh 0x200 0x8127 [(1, 0x05), (2, 0x0A)])
      (fun t => (t.getV 1, t.getV VF)) = some (0x05, 1) ∧
    see (fresh 0x200 0x8127 [(1, 0x0A), (2, 0x05)]) (fun t => (t.getV 1, t.getV VF)) = some (0xFB, 0) := by decide

/-- T78 in both alias modes. -/
theorem test_subn_alias : see (fresh 0x200 0x81F7 [(1, 0x03), (0xF, 0x10)]) (·.getV 1) = some 0xFE ∧
    see { fresh 0x200 0x81F7 [(1, 0x03), (0xF, 0x10)] with cfg := alternative } (·.getV 1) = some 0x0D := by decide

/-- T64: quirk off and on. -/
theorem test_shl : see (fresh 0x200 0x812E [(1, 0x81), (2, 0x01)])
      (fun t => (t.getV 1, t.getV VF)) = some (0x02, 1) ∧
    see { fresh 0x200 0x812E [(1, 0x81), (2, 0x01)] with cfg := quirky }
      (fun t => (t.getV 1, t.getV VF)) = some (0x02, 0) := by decide

/-- T79 in both alias modes. -/
theorem test_shl_alias : see (fresh 0x200 0x8F0E [(0xF, 0xC1)]) (·.getV VF) = some 0x02 ∧
    see { fresh 0x200 0x8F0E [(0xF, 0xC1)] with cfg := alternative } (·.getV VF) = some 0x82 := by decide

/-- T67: a draw of 0xA7, whichever draw it is. -/
theorem test_rnd (s : State) (h : Config.freeRandomByte s.draws = 0xA7) :
    (after (exec (.rnd 3 0x0F) s)).map (·.getV 3) = some 0x07 := by
  simp [exec, execRnd, after, h, State.getV, State.setV, State.countDraw, Vector.get_eq_getElem]

/-! ### Index register and memory (vectors T90 to T102) -/

theorem test_ld_i : see (fresh 0x200 0xA300 []) (·.I) = some 0x300 := by decide

/-- T91 and T92. -/
theorem test_add_i : see ((fresh 0x200 0xF21E [(2, 0x05), (0xF, 0x33)]).setI 0x0FFE)
      (fun t => (t.I, t.getV VF)) = some (0x1003, 0x33) ∧
    see ((fresh 0x200 0xF11E [(1, 0x01)]).setI 0xFFFF) (·.I) = some 0 := by decide

/-- T93 and T94. -/
theorem test_ld_font : see { fresh 0x200 0xF029 [(0, 0x0A)] with cfg := alternative } (·.I) = some 0x082 ∧
    see (fresh 0x200 0xF029 [(0, 0xFF)]) (·.I) = some 0x4FB := by decide

/-- T98: across the top of memory. -/
theorem test_bcd : see ((fresh 0x200 0xF033 [(0, 123)]).setI 0xFFF)
    (fun t => (t.readByte 0xFFF, t.readByte 0, t.readByte 1, t.I)) = some (1, 2, 3, 0xFFF) := by decide

theorem test_bcd_faults : see ({ fresh 0x200 0xF033 [(0, 123)] with cfg := alternative }.setI 0xFFF)
    (fun t => (isHalted (.addressOutOfRange 4096) 0x200 (some 0xF033) t, t.readByte 0xFFF)) =
      some (true, 0) := by decide

/-- T101. -/
theorem test_store : see ({ fresh 0x200 0xF355 [(0, 1), (1, 2), (2, 3), (3, 4)] with cfg := quirky }.setI 0xFFE)
    (fun t => ([0xFFE, 0xFFF, 0x000, 0x001].map t.readByte, t.I)) = some ([1, 2, 3, 4], 0x1002) := by decide

/-- T100, with one register fewer: VF stays. -/
theorem test_load : see ((fresh 0x200 0xFE65 [(0xF, 0x33)]).setI 0x400 |>.writeBytes 0x400 [1, 2, 3, 4])
    (fun t => (t.getV 0, t.getV 3, t.getV 4, t.getV VF, t.I)) = some (1, 4, 0, 0x33, 0x400) := by decide

/-! ### Keys and timers (vectors T110 on) -/

def keysDown (l : List Key) (s : State) : State := l.foldl (fun t k => t.setKey k true) s

theorem test_skp : see (keysDown [7] (fresh 0x206 0xE19E [(1, 7)])) (·.pc) = some 0x20A := by decide

/-- A key number above 15: a fatal fault, or its low four bits under `mask` (R180). -/
theorem test_skp_out_of_range :
    see (fresh 0x206 0xE19E [(1, 0x17)]) (isHalted (.keyIndexOutOfRange 0x17) 0x206 (some 0xE19E)) = some true ∧
    see { keysDown [7] (fresh 0x206 0xE19E [(1, 0x17)]) with cfg := alternative } (·.pc) = some 0x20A := by decide

theorem test_sknp : see (fresh 0x206 0xE1A1 [(1, 7)]) (·.pc) = some 0x20A ∧
    see (keysDown [7] (fresh 0x206 0xE1A1 [(1, 7)])) (·.pc) = some 0x208 := by decide

theorem test_ld_from_dt : see { fresh 0x200 0xF307 [] with DT := 2 } (fun t => (t.getV 3, t.DT)) = some (2, 1) := by
  decide

/-- The example of R183: no key, and keys 3 and 9. -/
theorem test_wait_key : see (fresh 0x204 0xF00A []) (·.pc) = some 0x204 ∧
    see (keysDown [9, 3] (fresh 0x204 0xF00A [])) (fun t => (t.getV 0, t.pc)) = some (3, 0x206) := by decide

theorem test_ld_to_dt : see (fresh 0x200 0xF215 [(2, 3)]) (·.DT) = some 2 := by decide

/-- The corner cases of R185: 1 beeps in its own step, 2 does not. -/
theorem test_ld_to_st : see (fresh 0x200 0xF218 [(2, 1)]) (fun t => (t.ST, t.out.beep)) = some (0, true) ∧
    see (fresh 0x200 0xF218 [(2, 2)]) (fun t => (t.ST, t.out.beep)) = some (1, false) := by decide

/-! ### Witnesses: concrete states and operands that meet the hypotheses of each statement, clause by clause -/

theorem fresh_inv : (fresh 0x200 0x2210 []).Inv := ⟨by decide, by decide, fun _ h => nomatch h⟩

theorem halted_inv : halted.Inv := ⟨by decide, by decide, fun _ _ => rfl⟩

theorem witness_EncodeOfDecodeIsTheWord : decode 0xDFFF = .instr (.drw 0xF 0xF 0xF) := by decide

theorem witness_DecodeFollowsTheOpcodeTable :
    (⟨"FxFF", 0xF0FF, 0xF0FF⟩ : OpcodeRow) ∉ opcodeTable ∧ (⟨"Fx65", 0xF0FF, 0xF065⟩ : OpcodeRow) ∈ opcodeTable ∧
    (0xFF65 : Word) &&& 0xF0FF = 0xF065 ∧ decode 0xFF65 = .instr (.load 0xF) ∧
    (∀ r ∈ opcodeTable, (0x0FFF : Word) &&& r.mask ≠ r.value) := by decide

theorem witness_NoWordMatchesTwoRows :
    ∃ r r' : OpcodeRow, r ∈ opcodeTable ∧ r' ∈ opcodeTable ∧
      (0x00EE : Word) &&& r.mask = r.value ∧ (0x00EE : Word) &&& r'.mask = r'.value :=
  ⟨⟨"00EE", 0xFFFF, 0x00EE⟩, ⟨"00EE", 0xFFFF, 0x00EE⟩, by decide⟩

theorem witness_AddRegistersWithCarry : (14 : Reg) ≠ VF := by decide

/-- The hypotheses of the four subtract and shift statements, in both alias modes. -/
theorem witness_FlagThenResult : ∃ (s t : State) (x y src : Reg) (a b f g : Nat),
    s.cfg.aluAlias = .sequential ∧ t.cfg.aluAlias = .latched ∧ x ≠ VF ∧ y = VF ∧
    a = (s.getV x).toNat ∧ b = (s.getV y).toNat ∧ f = (if a > b then 1 else 0) ∧ g = (if b > a then 1 else 0) ∧
    src = (if s.cfg.quirks.shiftUsesVy then y else x) ∧ a = (s.getV src).toNat :=
  ⟨withRegs State.reset [(1, 7), (0xF, 7)], { State.reset with cfg := alternative }, 1, VF, 1, 7, 7, 0, 0, by decide⟩

/-- The same with the quirk on and VF as the destination. -/
theorem witness_FlagThenResult_vy : ∃ (s : State) (x y src : Reg) (a b f g : Nat),
    s.cfg.aluAlias = .sequential ∧ x = VF ∧ y ≠ VF ∧ src = y ∧
    a = (s.getV x).toNat ∧ b = (s.getV y).toNat ∧ f = (if a > b then 1 else 0) ∧ g = (if b > a then 1 else 0) ∧
    src = (if s.cfg.quirks.shiftUsesVy then y else x) ∧ b = (s.getV src).toNat :=
  ⟨{ withRegs State.reset [(1, 1), (0xF, 0)] with cfg := quirky }, VF, 1, 1, 0, 1, 0, 1, by decide⟩

theorem witness_RandomByteIsMasked : (0x7F : Byte).getLsbD 7 = false := by decide

theorem witness_CallPushesTheReturnAddress : ∃ s : State, s.stack.length = 15 ∧ s.stack.length < 16 :=
  ⟨{ State.reset with stack := List.replicate 15 0x202 }, by decide⟩

theorem witness_CallOnAFullStackHalts : ∃ s : State, s.stack.length = 16 :=
  ⟨{ State.reset with stack := List.replicate 16 0x202 }, by decide⟩

theorem witness_ReturnPopsThePc :
    (∃ (s : State) (v : Word) (rest : List Word), s.stack = v :: rest) ∧ ∃ s : State, s.stack = [] :=
  ⟨⟨{ State.reset with stack := [0xFFFF] }, 0xFFFF, [], rfl⟩, State.reset, rfl⟩

theorem witness_ReturnOnAnEmptyStackEndsTheStep : ∃ s : State, s.status = .running ∧
    s.inRange s.pc.toNat 2 ∧ s.fetchWord = 0x00EE ∧ s.stack = [] :=
  ⟨fresh 0x200 0x00EE [], by decide, .inl (by decide), by decide, by decide⟩

theorem witness_SkipsOnRegisters : (0 < 1 ∧ 1 < 16) ∧ 0 < 15 ∧ 15 < 16 := by decide

theorem witness_JumpWithOffset :
    (∃ (s : State) (r : Reg), s.cfg.quirks.bnnnUsesVx = false ∧
      r.val = (if s.cfg.quirks.bnnnUsesVx then (0xFFF : Addr12).toNat / 0x100 else 0)) ∧
    (∃ (s : State) (r : Reg), s.cfg.quirks.bnnnUsesVx = true ∧ r = 0xF ∧
      r.val = (if s.cfg.quirks.bnnnUsesVx then (0xFFF : Addr12).toNat / 0x100 else 0)) :=
  ⟨⟨State.reset, 0, by decide⟩, { State.reset with cfg := quirky }, 0xF, by decide⟩

theorem witness_PointIndexAtGlyph : (∃ s : State, s.cfg.fx29Base = .at000) ∧ ∃ s : State, s.cfg.fx29Base = .at050 :=
  ⟨⟨State.reset, rfl⟩, { State.reset with cfg := alternative }, rfl⟩

/-- `Fx33`: canonical memory, and each clause at its boundary, I + 2 = 4095 and I + 2 = 4096. -/
theorem witness_StoreDecimalDigits :
    (∃ s : State, s.mem.wf ∧ s.cfg.memOob = .wrap ∧ s.I.toNat + 2 = 0x10001) ∧
    (∃ s : State, s.mem.wf ∧ s.cfg.memOob = .fault ∧ s.I.toNat + 2 < 4096 ∧ s.I.toNat + 2 = 4095) ∧
    (∃ s : State, s.mem.wf ∧ s.cfg.memOob = .fault ∧ 4096 ≤ s.I.toNat + 2 ∧ s.I.toNat + 2 = 4096) :=
  ⟨⟨State.reset.setI 0xFFFF, by decide⟩, ⟨{ State.reset with cfg := alternative, I := 0xFFD }, by decide⟩,
    { State.reset with cfg := alternative, I := 0xFFE }, by decide⟩

/-- `Fx55` and `Fx65`: each clause at its boundary, I + x = 4095 and I + x = 4096, and x = 0. -/
theorem witness_StoreRegisters_LoadRegisters :
    (∃ (s : State) (x : Reg), s.mem.wf ∧ s.cfg.memOob = .wrap ∧ s.I.toNat + x.val = 0x1000E) ∧
    (∃ (s : State) (x : Reg), s.mem.wf ∧ s.cfg.memOob = .fault ∧ s.I.toNat + x.val < 4096 ∧ s.I.toNat + x.val = 4095) ∧
    (∃ (s : State) (x : Reg), s.mem.wf ∧ s.cfg.memOob = .fault ∧ 4096 ≤ s.I.toNat + x.val ∧ s.I.toNat + x.val = 4096) ∧
    (0 : Reg) ≤ 0 ∧ (0 : Reg) < 1 :=
  ⟨⟨State.reset.setI 0xFFFF, 0xF, by decide⟩, ⟨{ State.reset with cfg := alternative, I := 0xFFF }, 0, by decide⟩,
    ⟨{ State.reset with cfg := alternative, I := 0xFF1 }, 0xF, by decide⟩, by decide⟩

theorem witness_StoredRegistersAreLoadedBack : ∃ s t u : State, s.mem.wf ∧ s.inRange s.I.toNat 16 ∧
    exec (.store 0xF) s = .next t ∧ u.mem = t.mem ∧ u.I = s.I ∧ u.cfg = s.cfg ∧ t.I ≠ s.I :=
  let s : State := { withRegs State.reset [(0, 1), (0xF, 2)] with cfg := quirky, I := 0xFFF }
  ⟨s, (s.writeBytes 0xFFF ((regsUpTo 0xF).map s.getV)).advanceIndex 0xF,
    { State.reset with cfg := quirky, I := 0xFFF, mem := (s.writeBytes 0xFFF ((regsUpTo 0xF).map s.getV)).mem },
    by decide, .inl rfl, rfl, rfl, rfl, rfl, by decide⟩

/-- Each clause at its boundary, the last access one past the end. -/
theorem witness_OutOfRangeAccessHaltsWithNoEffect : ∃ (s : State) (x : Reg) (n : Height),
    s.cfg.memOob = .fault ∧ 0 < n.val ∧ s.I.toNat + n.val - 1 = 4096 ∧ s.I.toNat + 2 = 4096 ∧
      s.I.toNat + x.val = 4096 :=
  ⟨{ State.reset with cfg := alternative, I := 0xFFE }, 2, 3, by decide⟩

/-- A sprite whose one 1 bit falls on a set pixel, and one that covers no set pixel; n = 0; and the
check at its boundary, the last row at 4095. -/
theorem witness_DrawSpriteXorsAndReportsCollision :
    (∃ (s : State) (px : Fin 64) (py : Fin 32), s.inRange s.I.toNat 1 ∧ SpriteCovers s 0 1 1 px py ∧
      fbPixel s.fb px py = true) ∧
    (∃ s : State, s.inRange s.I.toNat 0 ∧ ∀ px py, ¬ SpriteCovers s 0 1 0 px py) ∧
    (∃ s : State, s.cfg.memOob = .fault ∧ s.inRange s.I.toNat 1 ∧ s.I.toNat = 4095) :=
  ⟨⟨{ State.reset.setI 0x050 with fb := Vector.replicate 32 1 }, 0, 0, .inl rfl, ⟨0, 0, by decide⟩, by decide⟩,
    ⟨State.reset, .inl rfl, fun _ _ ⟨_, _, h, _⟩ => absurd h (Nat.not_lt_zero _)⟩,
    { State.reset with cfg := alternative, I := 0xFFF }, rfl, .inr (.inr (by decide)), rfl⟩

theorem witness_DrawingTwiceRestoresTheFramebuffer :
    (0 : Reg) ≠ VF ∧ (1 : Reg) ≠ VF ∧ State.reset.inRange State.reset.I.toNat 15 := ⟨by decide, by decide, .inl rfl⟩

theorem witness_OnlyClearAndDrawWriteTheDisplay : ∃ s : State, s.drawFlag = true ∧
    (∃ t, exec (.ldI 0) s = .next t) ∧ (∃ t, exec .cls s = .next t) ∧
    (∃ t, exec (.drw 0 0 0) s = .next t) ∧ s.inRange s.I.toNat (0 : Height).val ∧
    (Instr.ldI 0 ≠ .cls ∧ ∀ x y n, Instr.ldI 0 ≠ .drw x y n) :=
  ⟨{ State.reset with drawFlag := true }, rfl, ⟨_, rfl⟩, ⟨_, rfl⟩, ⟨_, rfl⟩, .inl rfl, by decide, fun _ _ _ h => nomatch h⟩

/-- Key 15 named by 15, and by 0x1F under `mask`. -/
theorem witness_SkipsOnAKey : (∃ (s : State) (k : Key), (s.getV 1).toNat = k.val ∧ k = 15) ∧
    ∃ (s : State) (k : Key), s.cfg.keyIndex = .mask ∧ (s.getV 1).toNat % 16 = k.val ∧ (s.getV 1).toNat = 0x1F :=
  ⟨⟨withRegs State.reset [(1, 15)], 15, by decide⟩,
    { withRegs State.reset [(1, 0x1F)] with cfg := alternative }, 15, by decide⟩

theorem witness_KeyNumberOutOfRangeHalts : ∃ s : State, s.cfg.keyIndex = .fault ∧ 15 < (s.getV 1).toNat ∧
    (s.getV 1).toNat = 16 := ⟨withRegs State.reset [(1, 16)], by decide⟩

theorem witness_WaitForAKey : (∃ s : State, ∀ k, s.keyDown k = false) ∧
    ∃ s : State, s.keyDown 15 = true ∧ ∀ j : Key, j < 15 → s.keyDown j = false :=
  ⟨⟨State.reset, by decide⟩, keysDown [15] State.reset, by decide⟩

theorem witness_StepRunsTheDecodedInstruction : (∃ (s : State) (r : FaultRecord), s.status = .halted r) ∧
    (∃ (s : State) (i : Instr) (u : State), s.status = .running ∧ s.inRange s.pc.toNat 2 ∧
      decode s.fetchWord = .instr i ∧ exec i { s with out := .silent, pc := s.pc + 2 } = .next u) ∧
    (∃ (s : State) (w : Word), s.status = .running ∧ s.inRange s.pc.toNat 2 ∧ decode s.fetchWord = .unknown w) :=
  ⟨⟨halted, _, rfl⟩, ⟨fresh 0x200 0x1208 [], .jp 0x208, _, by decide, .inl (by decide), by decide, rfl⟩,
    State.reset, 0, rfl, .inl rfl, by decide⟩

/-- The fetch check at its boundary under `fault`: the last word of memory. -/
theorem witness_UnknownWordIsAReportedNoOp : ∃ s : State, s.status = .running ∧ s.cfg.memOob = .fault ∧
    s.pc = 4094 ∧ s.inRange s.pc.toNat 2 ∧ decode s.fetchWord = .unknown s.fetchWord :=
  ⟨{ State.reset with cfg := alternative, pc := 4094 }, rfl, rfl, rfl, .inr (.inr (by decide)), by decide⟩

theorem witness_EveryCompletedStepTicks :
    (∃ (s u : State) (i : Instr), s.status = .running ∧ s.inRange s.pc.toNat 2 ∧ decode s.fetchWord = .instr i ∧
      exec i s.quiet.advance = .next u ∧ u.status = .running) ∧
    (∃ (s u : State) (i : Instr) (r : FaultRecord), s.status = .running ∧ s.inRange s.pc.toNat 2 ∧
      decode s.fetchWord = .instr i ∧ exec i s.quiet.advance = .next u ∧ u.status = .halted r) ∧
    (∃ (s : State) (w : Word), s.status = .running ∧ s.inRange s.pc.toNat 2 ∧ decode s.fetchWord = .unknown w) :=
  ⟨⟨fresh 0x200 0x1208 [], _, .jp 0x208, by decide, .inl (by decide), by decide, rfl, by decide⟩,
    ⟨fresh 0x200 0x00EE [], _, .ret, _, by decide, .inl (by decide), by decide, rfl, rfl⟩,
    State.reset, 0, rfl, .inl rfl, by decide⟩

theorem witness_FetchOutOfRangeHalts : ∃ s : State, s.status = .running ∧ s.cfg.memOob = .fault ∧
    4095 ≤ s.pc.toNat ∧ s.pc.toNat = 4095 :=
  ⟨{ State.reset with cfg := alternative, pc := 4095 }, by decide⟩

theorem witness_EveryInstructionKeepsTheRest : ∃ s t : State, exec (.store 0) s = .next t := ⟨State.reset, _, rfl⟩

theorem witness_OnlyNamedInstructionsWriteVF :
    ∃ s t : State, exec (.ldImm 0xF 1) s = .next t ∧ t.getV VF ≠ s.getV VF := ⟨State.reset, _, rfl, by decide⟩

/-- Each of the four causes. -/
theorem witness_FatalFaultsArePreciseAndOwn :
    (∃ (s t : State) (r : FaultRecord), s.status = .running ∧ exec .ret s = .next t ∧
      t.status = .halted r ∧ r.cause = .stackUnderflow) ∧
    (∃ (s t : State) (r : FaultRecord), s.status = .running ∧ exec (.call 0) s = .next t ∧
      t.status = .halted r ∧ r.cause = .stackOverflow) ∧
    (∃ (s t : State) (r : FaultRecord), s.status = .running ∧ exec (.skp 1) s = .next t ∧
      t.status = .halted r ∧ r.cause = .keyIndexOutOfRange 16) ∧
    (∃ (s t : State) (r : FaultRecord), s.status = .running ∧ exec (.bcd 1) s = .next t ∧
      t.status = .halted r ∧ r.cause = .addressOutOfRange 4096) :=
  ⟨⟨State.reset, _, _, rfl, rfl, rfl, rfl⟩,
    ⟨{ State.reset with stack := List.replicate 16 0 }, _, _, rfl, rfl, rfl, rfl⟩,
    ⟨withRegs State.reset [(1, 16)], _, _, rfl, rfl, rfl, rfl⟩,
    { State.reset with cfg := alternative, I := 0xFFE }, _, _, rfl, rfl, rfl, rfl⟩

theorem witness_HaltedUntilANewConstruction : ∃ (es : List Event) (s : State) (r : FaultRecord),
    s.status = .halted r ∧ (∀ cfg font, Event.host (.construct cfg font) ∉ es) ∧
    (∀ image, Event.host (.loadProgram image) ∉ es) ∧ es.length = 3 :=
  ⟨[.step, .host (.setKey 0 true), .step], halted, _, rfl, by simp, by simp, rfl⟩

theorem witness_StepsKeepKeypadAndParameters : ∃ s t : State, step s = .next t :=
  ⟨fresh 0x200 0xC30F [], _, rfl⟩

/-- The call that fills the stack, and a halted engine. -/
theorem witness_StepsKeepTheInvariant : (∃ s t : State, s.Inv ∧ step s = .next t ∧ s.stack.length = 15) ∧
    ∃ s t : State, s.Inv ∧ step s = .next t ∧ s.status ≠ .running :=
  ⟨⟨{ fresh 0x200 0x2210 [] with stack := List.replicate 15 0x202 }, _,
      ⟨by decide, by decide, fun _ h => nomatch h⟩, rfl, by decide⟩,
    halted, halted, halted_inv, rfl, by decide⟩

theorem witness_HostActionsAndRunsKeepTheInvariant : ∃ (es : List Event) (s t : State), s.Inv ∧
    runEvents es s = .next t ∧ es.length = 2 :=
  ⟨[.host (.setKey 0 true), .host .clearDrawFlag], fresh 0x200 0x2210 [], _, fresh_inv, rfl, rfl⟩

theorem witness_ConstructionSetsEveryField : ∃ font : List Byte, fontTableWf font = true ∧
    0 < font.length ∧ 79 < font.length := ⟨List.replicate 80 0xFF, by decide⟩

/-- Images of 3584 and of 3585 bytes. -/
theorem witness_LoadProgramCopiesAllOrNothing : State.reset.mem.wf ∧
    (∃ image : List Byte, image.length = 3584) ∧ ∃ image : List Byte, image.length = 3585 :=
  ⟨by decide, ⟨List.replicate 3584 1, List.length_replicate⟩, List.replicate 3585 1, List.length_replicate⟩

end Sys2Proof.Tests
end

section
/-! PROOFS. What the execute phase of each instruction can change, said once for all 34: `exec_frame`. -/

namespace Sys2Proof.Machine

/-- `OnlyChanges`, and the canonical form of memory is kept. -/
structure Frame (regs : List Reg) (cells : List Nat) (parts : List Part) (s t : State) : Prop
    extends OnlyChanges regs cells parts s t where
  mem_wf : s.mem.wf → t.mem.wf

theorem Part.same_trans {p : Part} {s t u : State} (h : p.same s t) (h' : p.same t u) : p.same s u := by
  cases p <;> exact Eq.trans h' h

/-! ### Frames of the operations of the state -/

section
variable {regs : List Reg} {cells : List Nat} {parts : List Part} {s t u : State}

theorem Frame.trans (h : Frame regs cells parts s t) (h' : Frame regs cells parts t u) :
    Frame regs cells parts s u where
  regs_same r hr := (h'.regs_same r hr).trans (h.regs_same r hr)
  bytes_same a ha := (h'.bytes_same a ha).trans (h.bytes_same a ha)
  parts_same p hp := Part.same_trans (h.parts_same p hp) (h'.parts_same p hp)
  mem_wf hs := h'.mem_wf (h.mem_wf hs)

/-- An update of the registers only. -/
theorem Frame.of_registers (heq : t = { s with V := t.V }) (hregs : ∀ r, r ∉ regs → t.getV r = s.getV r) :
    Frame regs cells parts s t where
  regs_same := hregs
  bytes_same a _ := by rw [heq]; rfl
  parts_same p _ := by rw [heq]; cases p <;> rfl
  mem_wf hs := by rw [heq]; exact hs

/-- An update of neither registers nor memory. -/
theorem Frame.of_parts (hV : t.V = s.V) (hmem : t.mem = s.mem) (hparts : ∀ p, p ∉ parts → p.same s t) :
    Frame regs cells parts s t where
  regs_same r _ := by rw [State.getV, hV, State.getV]
  bytes_same a _ := by rw [State.readByte, hmem, State.readByte]
  parts_same := hparts
  mem_wf hs := hmem ▸ hs

theorem frame_setV {r : Reg} (hr : r ∈ regs) (v : Byte) : Frame regs cells parts s (s.setV r v) :=
  .of_registers rfl fun _ hq => State.getV_setV_other s (ne_of_mem_of_not_mem hr hq).symm v

theorem frame_flagThenResult {x : Reg} (y : Reg) (hx : x ∈ regs) (hVF : VF ∈ regs)
    (flag result : Byte → Byte → Byte) : Frame regs cells parts s (s.flagThenResult x y flag result) :=
  .of_registers (s.flagThenResult_eq ..) fun _ hq => by
    rw [State.flagThenResult_getV, if_neg (ne_of_mem_of_not_mem hx hq).symm,
      if_neg (ne_of_mem_of_not_mem hVF hq).symm]

theorem frame_loadRegs {x : Reg} (hx : ∀ q : Reg, q.val ≤ x.val → q ∈ regs) :
    Frame regs cells parts s (s.loadRegs x) :=
  .of_registers (s.loadRegs_eq x) fun q hq => by rw [State.loadRegs_getV, if_neg (mt (hx q) hq)]

theorem frame_setPc (h : .pc ∈ parts) (v : Word) : Frame regs cells parts s (s.setPc v) :=
  .of_parts rfl rfl fun p hp => by cases p <;> simp_all [Part.same]

theorem frame_setI (h : .I ∈ parts) (v : Word) : Frame regs cells parts s (s.setI v) :=
  .of_parts rfl rfl fun p hp => by cases p <;> simp_all [Part.same]

theorem frame_setDT (h : .DT ∈ parts) (v : Byte) : Frame regs cells parts s (s.setDT v) :=
  .of_parts rfl rfl fun p hp => by cases p <;> simp_all [Part.same]

theorem frame_setST (h : .ST ∈ parts) (v : Byte) : Frame regs cells parts s (s.setST v) :=
  .of_parts rfl rfl fun p hp => by cases p <;> simp_all [Part.same]

theorem frame_setStack (h : .stack ∈ parts) (l : List Word) : Frame regs cells parts s (s.setStack l) :=
  .of_parts rfl rfl fun p hp => by cases p <;> simp_all [Part.same]

theorem frame_setDisplay (hfb : .fb ∈ parts) (hflag : .drawFlag ∈ parts) (fb : Framebuffer) :
    Frame regs cells parts s (s.setDisplay fb) :=
  .of_parts rfl rfl fun p hp => by cases p <;> simp_all [Part.same]

theorem frame_countDraw (h : .draws ∈ parts) : Frame regs cells parts s s.countDraw :=
  .of_parts rfl rfl fun p hp => by cases p <;> simp_all [Part.same]

theorem frame_raise (h : .status ∈ parts) (c : FatalCause) (i : Instr) :
    Frame regs cells parts s (s.raise c i) :=
  .of_parts rfl rfl fun p hp => by cases p <;> simp_all [Part.same]

theorem frame_writeBytes {base : Nat} {vs : List Byte} (h : ∀ k < vs.length, ea (base + k) ∈ cells) :
    Frame regs cells parts s (s.writeBytes base vs) where
  regs_same r _ := s.writeBytes_getV base vs r
  bytes_same _ ha := s.readByte_writeBytes_other fun k hk => (ne_of_mem_of_not_mem (h k hk) ha).symm
  parts_same p _ := by rw [State.writeBytes_eq]; cases p <;> rfl
  mem_wf hs := State.writeBytes_wf hs base vs

/-- A memory instruction has the frame of its effect, as long as that has the run status. -/
theorem frame_access {base count : Nat} {i : Instr} {effect : State → State} (hstatus : .status ∈ parts)
    (heffect : Frame regs cells parts s (effect s)) :
    Frame regs cells parts s (s.access base count i effect) := by
  obtain ⟨-, heq⟩ | ⟨-, -, -, -, heq⟩ := s.access_cases base count i effect
  · rwa [heq]
  · rw [heq]; exact frame_raise hstatus _ i

end

theorem mem_cellsFrom {base count k : Nat} (h : k < count) : ea (base + k) ∈ cellsFrom base count :=
  List.mem_map_of_mem (List.mem_range.2 h)

theorem length_regsUpTo (x : Reg) : (regsUpTo x).length = x.val + 1 := by
  rw [regsUpTo_eq, List.length_ofFn]

/-! ### The instructions that answer by cases -/

section
variable {s : State}

theorem exec_ret_of_cons {v : Word} {rest : List Word} (h : s.stack = v :: rest) :
    exec .ret s = .next ((s.setStack rest).setPc v) := by
  simp only [exec, execRet, State.pop_cons h]

theorem exec_ret_of_nil (h : s.stack = []) : exec .ret s = .next (s.raise .stackUnderflow .ret) := by
  simp only [exec, execRet, State.pop_nil h]

theorem exec_call_of_room (h : s.stack.length < 16) (nnn : Addr12) :
    exec (.call nnn) s = .next ((s.setStack (s.pc :: s.stack)).setPc (zextAddr nnn)) := by
  simp only [exec, execCall, State.push_of_room h]

theorem exec_call_of_full (h : 16 ≤ s.stack.length) (nnn : Addr12) :
    exec (.call nnn) s = .next (s.raise .stackOverflow (.call nnn)) := by
  simp only [exec, execCall, State.push_of_full h]

theorem exec_skp_of_key {x : Reg} {k : Key} (h : s.keyNumber (s.getV x) = some k) :
    exec (.skp x) s = .next (s.skipIf (s.keyDown k)) := by
  simp only [exec, execSkp, h]

theorem exec_skp_of_noKey {x : Reg} (h : s.keyNumber (s.getV x) = none) :
    exec (.skp x) s = .next (s.raise (.keyIndexOutOfRange (s.getV x)) (.skp x)) := by
  simp only [exec, execSkp, h]

theorem exec_sknp_of_key {x : Reg} {k : Key} (h : s.keyNumber (s.getV x) = some k) :
    exec (.sknp x) s = .next (s.skipIf (!s.keyDown k)) := by
  simp only [exec, execSknp, h]

theorem exec_sknp_of_noKey {x : Reg} (h : s.keyNumber (s.getV x) = none) :
    exec (.sknp x) s = .next (s.raise (.keyIndexOutOfRange (s.getV x)) (.sknp x)) := by
  simp only [exec, execSknp, h]

theorem exec_waitKey_of_key {k : Key} (h : s.lowestKeyDown = some k) (x : Reg) :
    exec (.waitKey x) s = .next (s.setV x (BitVec.ofNat 8 k.val)) := by
  simp only [exec, execWaitKey, h]

theorem exec_waitKey_of_noKey (h : s.lowestKeyDown = none) (x : Reg) :
    exec (.waitKey x) s = .next (s.setPc (s.pc - 2)) := by
  simp only [exec, execWaitKey, h]

end

/-! ### Every instruction -/

/-- Every execute phase answers a next state, in which nothing has changed but what `writtenRegs`,
`storedCells` and `writtenParts` list (R76, R92). -/
theorem exec_answers_frame (i : Instr) (s : State) :
    ∃ t, exec i s = .next t ∧ Frame (writtenRegs i) (storedCells i s) (writtenParts i) s t := by
  cases i with
  | cls => exact ⟨_, rfl, frame_setDisplay (by decide) (by decide) _⟩
  | jp nnn | jpOff nnn => exact ⟨_, rfl, frame_setPc List.mem_cons_self _⟩
  | seImm x y | sneImm x y | seReg x y | sneReg x y => exact ⟨_, rfl, frame_setPc List.mem_cons_self _⟩
  | ldImm x y | addImm x y | ldReg x y | orReg x y | andReg x y | xorReg x y =>
    exact ⟨_, rfl, frame_setV List.mem_cons_self _⟩
  | ldFromDT x => exact ⟨_, rfl, frame_setV List.mem_cons_self _⟩
  | addReg x y =>
    exact ⟨_, rfl, (frame_setV (by simp [writtenRegs]) _).trans (frame_setV (by simp [writtenRegs]) _)⟩
  | sub x y | shr x y | subn x y | shl x y =>
    exact ⟨_, rfl, frame_flagThenResult y (by simp [writtenRegs]) (by simp [writtenRegs]) _ _⟩
  | rnd x kk => exact ⟨_, rfl, (frame_setV List.mem_cons_self _).trans (frame_countDraw List.mem_cons_self)⟩
  | ldI nnn => exact ⟨_, rfl, frame_setI List.mem_cons_self _⟩
  | addI x | ldFont x => exact ⟨_, rfl, frame_setI List.mem_cons_self _⟩
  | ldToDT x => exact ⟨_, rfl, frame_setDT List.mem_cons_self _⟩
  | ldToST x => exact ⟨_, rfl, frame_setST List.mem_cons_self _⟩
  | ret =>
    cases hs : s.stack with
    | nil => exact ⟨_, exec_ret_of_nil hs, frame_raise (by decide) _ _⟩
    | cons v rest =>
      exact ⟨_, exec_ret_of_cons hs, (frame_setStack (by decide) rest).trans (frame_setPc (by decide) v)⟩
  | call nnn =>
    rcases Nat.lt_or_ge s.stack.length 16 with hroom | hfull
    · exact ⟨_, exec_call_of_room hroom nnn,
        (frame_setStack (by simp [writtenParts]) _).trans (frame_setPc List.mem_cons_self _)⟩
    · exact ⟨_, exec_call_of_full hfull nnn, frame_raise (by simp [writtenParts]) _ _⟩
  | skp x =>
    cases hk : s.keyNumber (s.getV x) with
    | none => exact ⟨_, exec_skp_of_noKey hk, frame_raise (by simp [writtenParts]) _ _⟩
    | some k => exact ⟨_, exec_skp_of_key hk, frame_setPc List.mem_cons_self _⟩
  | sknp x =>
    cases hk : s.keyNumber (s.getV x) with
    | none => exact ⟨_, exec_sknp_of_noKey hk, frame_raise (by simp [writtenParts]) _ _⟩
    | some k => exact ⟨_, exec_sknp_of_key hk, frame_setPc List.mem_cons_self _⟩
  | waitKey x =>
    cases hk : s.lowestKeyDown with
    | none => exact ⟨_, exec_waitKey_of_noKey hk x, frame_setPc List.mem_cons_self _⟩
    | some k => exact ⟨_, exec_waitKey_of_key hk x, frame_setV List.mem_cons_self _⟩
  | drw x y n =>
    refine ⟨_, rfl, frame_access (by simp [writtenParts]) ?_⟩
    exact ((frame_setV List.mem_cons_self _).trans (frame_setV List.mem_cons_self _)).trans
      (frame_setDisplay (by simp [writtenParts]) (by simp [writtenParts]) _)
  | bcd x => exact ⟨_, rfl, frame_access List.mem_cons_self (frame_writeBytes fun _ => mem_cellsFrom)⟩
  | store x =>
    refine ⟨_, rfl, frame_access (by simp [writtenParts])
      (.trans (frame_writeBytes fun k hk => ?_) (frame_setI List.mem_cons_self _))⟩
    rw [List.length_map, length_regsUpTo] at hk
    exact mem_cellsFrom hk
  | load x =>
    refine ⟨_, rfl, frame_access (by simp [writtenParts])
      (.trans (frame_loadRegs fun q hq => ?_) (frame_setI List.mem_cons_self _))⟩
    exact List.mem_filter.2 ⟨List.mem_finRange q, decide_eq_true hq⟩

theorem exec_frame {i : Instr} {s t : State} (h : exec i s = .next t) :
    Frame (writtenRegs i) (storedCells i s) (writtenParts i) s t := by
  obtain ⟨u, hu, hframe⟩ := exec_answers_frame i s
  cases h.symm.trans hu
  exact hframe

end Sys2Proof.Machine
end

section
/-! PROOFS. The statements about the state (10_state.md): the invariant, who writes VF, the keypad and the
parameters, and the halted engine. -/

namespace Sys2Proof.Machine

/-! ### What no execute phase, or only a named one, writes -/

/-- The keypad, the parameters and the outputs are no part that an instruction writes (R28, R31, R33). -/
theorem unwritten_parts (i : Instr) :
    .keys ∉ writtenParts i ∧ .cfg ∉ writtenParts i ∧ .out ∉ writtenParts i := by
  cases i <;> simp [writtenParts]

theorem stack_mem_writtenParts {i : Instr} :
    .stack ∈ writtenParts i ↔ i = .ret ∨ ∃ nnn, i = .call nnn := by
  cases i <;> simp [writtenParts]

theorem draws_mem_writtenParts {i : Instr} : .draws ∈ writtenParts i ↔ ∃ x kk, i = .rnd x kk := by
  cases i <;> simp [writtenParts]

section
variable {i : Instr} {s t : State} (h : exec i s = .next t)
include h

theorem exec_keys : t.keys = s.keys := (exec_frame h).parts_same .keys (unwritten_parts i).1

theorem exec_cfg : t.cfg = s.cfg := (exec_frame h).parts_same .cfg (unwritten_parts i).2.1

theorem exec_out : t.out = s.out := (exec_frame h).parts_same .out (unwritten_parts i).2.2

/-- Only `2nnn` adds an entry, and only with room for it (R25, R112). -/
theorem exec_stack_depth (hs : s.stack.length ≤ 16) : t.stack.length ≤ 16 := by
  by_cases hw : .stack ∈ writtenParts i
  · obtain rfl | ⟨nnn, rfl⟩ := stack_mem_writtenParts.1 hw
    · cases hst : s.stack with
      | nil => cases (exec_ret_of_nil hst).symm.trans h; exact hs
      | cons v rest =>
        cases (exec_ret_of_cons hst).symm.trans h
        rw [hst] at hs
        exact Nat.le_of_succ_le hs
    · rcases Nat.lt_or_ge s.stack.length 16 with hroom | hfull
      · cases (exec_call_of_room hroom nnn).symm.trans h; exact hroom
      · cases (exec_call_of_full hfull nnn).symm.trans h; exact hs
  · have hsame : t.stack = s.stack := (exec_frame h).parts_same .stack hw
    rwa [hsame]

/-- Only `Cxkk` draws, and it draws once (R145). -/
theorem exec_draws : t.draws = s.draws ∨ t.draws = s.draws + 1 := by
  by_cases hw : .draws ∈ writtenParts i
  · obtain ⟨x, kk, rfl⟩ := draws_mem_writtenParts.1 hw
    cases h
    exact .inr rfl
  · exact .inl ((exec_frame h).parts_same .draws hw)

end

/-! ### The end of a step -/

theorem State.endStep_cases (s : State) : s.endStep = s.timerTick ∨ s.endStep = s := by
  unfold endStep
  split
  · exact .inl rfl
  · exact .inr rfl

/-- The end of a step writes the timers and the outputs and nothing else. -/
theorem State.endStep_eq (s : State) :
    s.endStep = { s with DT := s.endStep.DT, ST := s.endStep.ST, out := s.endStep.out } := by
  obtain h | h := s.endStep_cases
  · rw [h]; rfl
  · rw [h]

section
variable (s : State)
@[simp] theorem State.endStep_stack : s.endStep.stack = s.stack := by rw [endStep_eq]
@[simp] theorem State.endStep_keys : s.endStep.keys = s.keys := by rw [endStep_eq]
@[simp] theorem State.endStep_status : s.endStep.status = s.status := by rw [endStep_eq]
@[simp] theorem State.endStep_mem : s.endStep.mem = s.mem := by rw [endStep_eq]
@[simp] theorem State.endStep_cfg : s.endStep.cfg = s.cfg := by rw [endStep_eq]
@[simp] theorem State.endStep_draws : s.endStep.draws = s.draws := by rw [endStep_eq]
end

/-! ### The invariant -/

namespace State.Inv

variable {s t : State}

theorem quiet (h : s.Inv) : s.quiet.Inv := ⟨h.mem_wf, h.stack_depth, fun _ _ => rfl⟩

/-- A running engine may hold any output. -/
theorem of_running (hmem : t.mem = s.mem) (hstack : t.stack = s.stack) (hstatus : t.status = .running)
    (h : s.Inv) : t.Inv where
  mem_wf := hmem ▸ h.mem_wf
  stack_depth := hstack ▸ h.stack_depth
  halted_quiet r hr := by simp [hstatus] at hr

theorem endStep (h : s.Inv) : s.endStep.Inv where
  mem_wf := s.endStep_mem ▸ h.mem_wf
  stack_depth := s.endStep_stack ▸ h.stack_depth
  halted_quiet r hr := by
    rw [endStep_status] at hr
    rw [endStep_halted hr]
    exact h.halted_quiet r hr

/-- An execute phase that starts with no output halts with none. -/
theorem exec {i : Instr} (h : s.Inv) (hout : s.out = .silent) (he : Machine.exec i s = .next t) : t.Inv where
  mem_wf := (exec_frame he).mem_wf h.mem_wf
  stack_depth := exec_stack_depth he h.stack_depth
  halted_quiet _ _ := (exec_out he).trans hout

/-- Bytes written to memory keep the invariant (R57). -/
theorem writeBytes (h : s.Inv) (base : Nat) (vs : List Byte) : (s.writeBytes base vs).Inv where
  mem_wf := writeBytes_wf h.mem_wf base vs
  stack_depth := by rw [writeBytes_stack]; exact h.stack_depth
  halted_quiet r hr := by
    rw [writeBytes_status] at hr
    rw [writeBytes_out]
    exact h.halted_quiet r hr

end State.Inv

/-- Settles O51: the four cases of a step, of which the execute phase is `State.Inv.exec`. -/
theorem stepsKeepTheInvariant : Obligations.StepsKeepTheInvariant := by
  intro s t hinv h
  obtain ⟨r, -, rfl⟩ | ⟨-, -, -, rfl⟩ | ⟨hrun, -, w, -, rfl⟩ | ⟨-, -, i, u, -, he, rfl⟩ := step_cases h
  · exact hinv.quiet
  · exact ⟨hinv.mem_wf, hinv.stack_depth, fun _ _ => rfl⟩
  · exact State.Inv.endStep (.of_running (s := s) rfl rfl hrun hinv)
  · have hstart : s.quiet.advance.Inv := ⟨hinv.mem_wf, hinv.stack_depth, fun _ _ => rfl⟩
    exact (hstart.exec rfl he).endStep

/-- An image that fits is written, any other changes nothing (R232). -/
theorem hostAct_loadProgram (image : List Byte) (s : State) :
    hostAct (.loadProgram image) s = if imageWf image then s.writeBytes progBase image else s := by
  simp only [hostAct, State.loadProgram]
  by_cases hfit : imageWf image = true
  · simp only [if_pos hfit]
  · simp only [if_neg hfit]

theorem construct_inv (cfg : Config) (font : List Byte) : (construct cfg font).Inv :=
  State.Inv.writeBytes (s := { State.reset with cfg := cfg })
    ⟨⟨.nil, fun _ hp => nomatch hp⟩, Nat.zero_le 16, fun _ hr => nomatch hr⟩ fontBase font

theorem hostAct_inv (a : HostAction) {s : State} (h : s.Inv) : (hostAct a s).Inv := by
  cases a with
  | construct cfg font => exact construct_inv cfg font
  | loadProgram image =>
    rw [hostAct_loadProgram]
    split
    · exact h.writeBytes progBase image
    · exact h
  | setKey k down => exact ⟨h.mem_wf, h.stack_depth, h.halted_quiet⟩
  | clearDrawFlag => exact ⟨h.mem_wf, h.stack_depth, h.halted_quiet⟩

/-- Settles O52: host actions by `hostAct_inv`, runs by induction with O51 for their steps. -/
theorem hostActionsAndRunsKeepTheInvariant : Obligations.HostActionsAndRunsKeepTheInvariant :=
  ⟨fun a _ h => hostAct_inv a h,
    fun _ _ _ h hrun => runEvents_induction (fun a _ => hostAct_inv a) stepsKeepTheInvariant h hrun⟩

/-! ### VF, the keypad and the parameters -/

/-- Settles O47: VF is unchanged unless `writtenRegs` lists it (`exec_frame`), so it is a flag of the
instruction or its destination. -/
theorem onlyNamedInstructionsWriteVF : Obligations.OnlyNamedInstructionsWriteVF := by
  intro i s t h hne
  have hVF : VF ∈ writtenRegs i := by_contra fun hnot => hne ((exec_frame h).regs_same VF hnot)
  cases i with
  | addReg x y | sub x y | shr x y | subn x y | shl x y => exact .inl ⟨x, y, by simp⟩
  | drw x y n => exact .inl ⟨x, y, by simp⟩
  | ldImm x kk | addImm x kk | rnd x kk =>
    obtain rfl := List.mem_singleton.1 hVF
    exact .inr (.inl ⟨kk, by simp⟩)
  | ldReg x y | orReg x y | andReg x y | xorReg x y =>
    obtain rfl := List.mem_singleton.1 hVF
    exact .inr (.inr (.inl ⟨y, by simp⟩))
  | ldFromDT x | waitKey x =>
    obtain rfl := List.mem_singleton.1 hVF
    simp
  | load x =>
    obtain rfl : x = VF := Fin.last_le_iff.1 (of_decide_eq_true (List.mem_filter.1 hVF).2)
    simp
  | _ => exact absurd hVF List.not_mem_nil

/-- Settles O50: the four cases of a step, of which only the execute phase can draw. -/
theorem stepsKeepKeypadAndParameters : Obligations.StepsKeepKeypadAndParameters := by
  intro s t h
  obtain ⟨r, -, rfl⟩ | ⟨-, -, -, rfl⟩ | ⟨-, -, w, -, rfl⟩ | ⟨-, -, i, u, -, he, rfl⟩ := step_cases h
  · simp
  · simp
  · simp
  · have hkeys := exec_keys he
    have hcfg := exec_cfg he
    have hdraws := exec_draws he
    simp only [State.advance_eq, State.setPc_keys, State.setPc_cfg, State.setPc_draws, State.quiet_keys,
      State.quiet_cfg, State.quiet_draws] at hkeys hcfg hdraws
    simp only [State.endStep_keys, State.endStep_cfg, State.endStep_draws]
    exact ⟨hkeys, hcfg, by omega, by omega⟩

/-! ### The halted engine -/

/-- What an event does to a halted engine (R32, R220). -/
def haltedEvent : Event → State → State
  | .host a, s => hostAct a s
  | .step, s => s.quiet

/-- A run from a halted engine does `haltedEvent` for each event. -/
theorem runEvents_cons_of_halted {s : State} {r : FaultRecord} (h : s.status = .halted r) (e : Event)
    (es : List Event) : runEvents (e :: es) s = runEvents es (haltedEvent e s) := by
  cases e with
  | host a => rfl
  | step => simp only [runEvents, step_halted h, haltedEvent]

/-- `t` is halted with the record `r` and has the registers, timers, stack and framebuffer of `s`. -/
structure StaysHalted (r : FaultRecord) (s t : State) : Prop where
  status : t.status = .halted r
  V : t.V = s.V
  I : t.I = s.I
  pc : t.pc = s.pc
  stack : t.stack = s.stack
  DT : t.DT = s.DT
  ST : t.ST = s.ST
  fb : t.fb = s.fb

theorem StaysHalted.trans {r : FaultRecord} {s t u : State} (h : StaysHalted r s t) (h' : StaysHalted r t u) :
    StaysHalted r s u :=
  ⟨h'.status, h'.V.trans h.V, h'.I.trans h.I, h'.pc.trans h.pc, h'.stack.trans h.stack, h'.DT.trans h.DT,
    h'.ST.trans h.ST, h'.fb.trans h.fb⟩

theorem haltedEvent_staysHalted {s : State} {r : FaultRecord} (h : s.status = .halted r) {e : Event}
    (hcons : ∀ cfg font, e ≠ .host (.construct cfg font)) : StaysHalted r s (haltedEvent e s) := by
  cases e with
  | step => exact ⟨h, rfl, rfl, rfl, rfl, rfl, rfl, rfl⟩
  | host a =>
    cases a with
    | construct cfg font => exact absurd rfl (hcons cfg font)
    | loadProgram image =>
      rw [haltedEvent, hostAct_loadProgram]
      split
      · rw [State.writeBytes_eq]
        exact ⟨h, rfl, rfl, rfl, rfl, rfl, rfl, rfl⟩
      · exact ⟨h, rfl, rfl, rfl, rfl, rfl, rfl, rfl⟩
    | setKey k down => exact ⟨h, rfl, rfl, rfl, rfl, rfl, rfl, rfl⟩
    | clearDrawFlag => exact ⟨h, rfl, rfl, rfl, rfl, rfl, rfl, rfl⟩

theorem haltedEvent_mem {e : Event} (hcons : ∀ cfg font, e ≠ .host (.construct cfg font))
    (hload : ∀ image, e ≠ .host (.loadProgram image)) (s : State) : (haltedEvent e s).mem = s.mem := by
  cases e with
  | step => rfl
  | host a =>
    cases a with
    | construct cfg font => exact absurd rfl (hcons cfg font)
    | loadProgram image => exact absurd rfl (hload image)
    | setKey k down => rfl
    | clearDrawFlag => rfl

/-- A run without a construction leaves a halted engine as it is, by induction on the events. -/
theorem runEvents_staysHalted {es : List Event} {s : State} {r : FaultRecord} (h : s.status = .halted r)
    (hcons : ∀ cfg font, Event.host (.construct cfg font) ∉ es) :
    ∃ t, runEvents es s = .next t ∧ StaysHalted r s t ∧
      ((∀ image, Event.host (.loadProgram image) ∉ es) → t.mem = s.mem) := by
  induction es generalizing s with
  | nil => exact ⟨s, rfl, ⟨h, rfl, rfl, rfl, rfl, rfl, rfl, rfl⟩, fun _ => rfl⟩
  | cons e es ih =>
    have hhead : ∀ cfg font, e ≠ .host (.construct cfg font) := fun cfg font he =>
      hcons cfg font (he ▸ List.mem_cons_self)
    have hfirst := haltedEvent_staysHalted h hhead
    obtain ⟨t, hrun, hrest, hmem⟩ :=
      ih hfirst.status fun cfg font hm => hcons cfg font (List.mem_cons_of_mem e hm)
    refine ⟨t, (runEvents_cons_of_halted h e es).trans hrun, hfirst.trans hrest, fun hload => ?_⟩
    rw [hmem fun image hm => hload image (List.mem_cons_of_mem e hm)]
    exact haltedEvent_mem hhead (fun image he => hload image (he ▸ List.mem_cons_self)) s

/-- Settles O49: the fields of `runEvents_staysHalted`. -/
theorem haltedUntilANewConstruction : Obligations.HaltedUntilANewConstruction := by
  intro es s r h hcons
  obtain ⟨t, hrun, hsame, hmem⟩ := runEvents_staysHalted h hcons
  exact ⟨t, hrun, hsame.status, hsame.V, hsame.I, hsame.pc, hsame.stack, hsame.DT, hsame.ST, hsame.fb, hmem⟩

end Sys2Proof.Machine
end

section
/-! PROOFS. The statements about memory (20_memory.md): the fetched word. -/

namespace Sys2Proof.Machine

/-- Settles O40: `wordOfBytes_toNat`, with the two bytes read at their effective addresses (R56, R58). -/
theorem fetchIsBigEndian : Obligations.FetchIsBigEndian := by
  intro s
  rw [State.fetchWord, wordOfBytes_toNat]
  simp only [State.readByte, ea]

end Sys2Proof.Machine
end

section
/-! PROOFS. The statements about the encoding (30_encoding.md): the two round trips, the opcode table, the unknown
words, and that every instruction and every step answers. -/

namespace Sys2Proof

/-! ### Decode of encode -/

/-- The decoder reads every instruction back, family by family (R73): the fields of a pack are what was packed. -/
theorem decode_encode (i : Instr) : decode (encode i) = .instr i := by
  cases i with
  | cls | ret => rfl
  | jp nnn | call nnn | ldI nnn | jpOff nnn => simp [encode, decode]
  | seImm x kk | sneImm x kk | ldImm x kk | addImm x kk | rnd x kk => simp [encode, decode]
  | seReg x y | sneReg x y => simp [encode, decode]
  | drw x y n => simp [encode, decode]
  | ldReg x y | orReg x y | andReg x y | xorReg x y | addReg x y | sub x y | shr x y | subn x y | shl x y =>
    simp [encode, decode, decodeAlu]
  | skp x | sknp x => simp [encode, decode, decodeKeys]
  | ldFromDT x | waitKey x | ldToDT x | ldToST x | addI x | ldFont x | bcd x | store x | load x =>
    simp [encode, decode, decodeMisc]

/-- Settles O1: `decode_encode`, and the bytes of a word give the word back. -/
theorem decodeOfEncodeIsTheInstruction : Obligations.DecodeOfEncodeIsTheInstruction := fun i =>
  ⟨decode_encode i, fun rest => by simp [encodeBytes, decodeBytes, decode_encode]⟩

/-! ### Encode of decode -/

theorem fieldOp_lt (w : Word) : fieldOp w < 16 := (w.extractLsb' 12 4).isLt

section
variable {w : Word} {op : BitVec 4} (hop : fieldOp w = op.toNat)
include hop

/-- The fields of a word, packed again, are the word. -/
theorem packNNN_fields : packNNN op (fieldNNN w) = w := by
  apply BitVec.eq_of_toNat_eq
  rw [packNNN_toNat, fieldNNN_toNat, ← hop, fieldOp_eq]
  omega

theorem packXKK_fields {kk : Byte} (hkk : fieldKK w = kk) : packXKK op (fieldX w) kk = w := by
  apply BitVec.eq_of_toNat_eq
  rw [packXKK_toNat, fieldX_eq, ← hkk, fieldKK_toNat, ← hop, fieldOp_eq]
  omega

theorem packXYN_fields {n : BitVec 4} (hn : (fieldN w).val = n.toNat) :
    packXYN op (fieldX w) (fieldY w) n = w := by
  apply BitVec.eq_of_toNat_eq
  rw [packXYN_toNat, fieldX_eq, fieldY_eq, ← hn, fieldN_eq, ← hop, fieldOp_eq]
  omega

end

/-- The word a decoder's answer stands for: an unknown word itself, and the encoding of an instruction. -/
def Decoded.word : Decoded → Word
  | .instr i => encode i
  | .unknown w => w

theorem word_decodeAlu {w : Word} (hop : fieldOp w = 8) : (decodeAlu w).word = w := by
  unfold decodeAlu
  split
  case h_10 => rfl
  all_goals exact packXYN_fields hop ‹_›

theorem word_decodeKeys {w : Word} (hop : fieldOp w = 14) : (decodeKeys w).word = w := by
  unfold decodeKeys
  split_ifs
  case neg => rfl
  all_goals exact packXKK_fields hop ‹_›

theorem word_decodeMisc {w : Word} (hop : fieldOp w = 15) : (decodeMisc w).word = w := by
  unfold decodeMisc
  split_ifs
  case neg => rfl
  all_goals exact packXKK_fields hop ‹_›

/-- The decoder drops no bit: its answer stands for the word it was given (R77). -/
theorem word_decode (w : Word) : (decode w).word = w := by
  unfold decode
  split
  case h_1 =>
    split_ifs with hcls hret
    · exact hcls.symm
    · exact hret.symm
    · rfl
  case h_2 hop | h_3 hop | h_11 hop | h_12 hop => exact packNNN_fields hop
  case h_4 hop | h_5 hop | h_7 hop | h_8 hop | h_13 hop => exact packXKK_fields hop rfl
  case h_6 hop | h_10 hop =>
    split_ifs with hn
    · exact packXYN_fields hop hn
    · rfl
  case h_9 hop => exact word_decodeAlu hop
  case h_14 hop => exact packXYN_fields hop rfl
  case h_15 hop => exact word_decodeKeys hop
  case h_16 =>
    refine word_decodeMisc ?_
    have := fieldOp_lt w
    simp only [imp_false] at *
    omega

theorem encode_of_decode {w : Word} {i : Instr} (h : decode w = .instr i) : encode i = w := by
  rw [← word_decode w, h, Decoded.word]

/-- Settles O2: `word_decode`, read for an instruction. -/
theorem encodeOfDecodeIsTheWord : Obligations.EncodeOfDecodeIsTheWord := fun _ _ => encode_of_decode

/-- A word decodes to an instruction, or it is itself the unknown word. -/
theorem decode_cases (w : Word) : (∃ i, decode w = .instr i) ∨ decode w = .unknown w := by
  cases h : decode w with
  | instr i => exact .inl ⟨i, rfl⟩
  | unknown u =>
    have hu : u = w := by rw [← word_decode w, h, Decoded.word]
    exact .inr (by rw [hu])

/-! ### The opcode table -/

theorem row_mem_opcodeTable (i : Instr) : i.row ∈ opcodeTable := by
  cases i <;> simp [opcodeTable, oneOfEach, Instr.row]

section
open Laws.EncodingMatchesRow

/-- The word of every instruction matches its row: the family of lemmas, one an instruction, as one. -/
theorem encode_matchesRow : ∀ i : Instr, Statement i
  | .cls => cls
  | .ret => ret
  | .jp nnn => jp nnn
  | .call nnn => call nnn
  | .seImm x kk => seImm x kk
  | .sneImm x kk => sneImm x kk
  | .seReg x y => seReg x y
  | .ldImm x kk => ldImm x kk
  | .addImm x kk => addImm x kk
  | .ldReg x y => ldReg x y
  | .orReg x y => orReg x y
  | .andReg x y => andReg x y
  | .xorReg x y => xorReg x y
  | .addReg x y => addReg x y
  | .sub x y => sub x y
  | .shr x y => shr x y
  | .subn x y => subn x y
  | .shl x y => shl x y
  | .sneReg x y => sneReg x y
  | .ldI nnn => ldI nnn
  | .jpOff nnn => jpOff nnn
  | .rnd x kk => rnd x kk
  | .drw x y n => drw x y n
  | .skp x => skp x
  | .sknp x => sknp x
  | .ldFromDT x => ldFromDT x
  | .waitKey x => waitKey x
  | .ldToDT x => ldToDT x
  | .ldToST x => ldToST x
  | .addI x => addI x
  | .ldFont x => ldFont x
  | .bcd x => bcd x
  | .store x => store x
  | .load x => load x

end

/-- A decoded word matches the row of its instruction, since it is the instruction's encoding. -/
theorem and_mask_of_decode {w : Word} {i : Instr} (h : decode w = .instr i) :
    w &&& i.row.mask = i.row.value := by
  rw [← encode_of_decode h]
  exact eq_of_beq (encode_matchesRow i)

/-! A field that the mask of a row keeps whole is the field of the row's match. -/

theorem fieldOp_of_matches {w : Word} {i : Instr} (h : w &&& i.row.mask = i.row.value) :
    fieldOp w = i.row.value.toNat / 4096 := by
  have hmask : i.row.mask.extractLsb' 12 4 = .allOnes 4 := by cases i <;> simp [Instr.row]
  rw [← fieldOp_eq, fieldOp, fieldOp, ← h, BitVec.extractLsb'_and, hmask, BitVec.and_allOnes]

theorem fieldN_of_and_eq {w v : Word} (h : w &&& 0xF00F = v) : (fieldN w).val = v.toNat % 16 := by
  have hmask : (0xF00F : Word).extractLsb' 0 4 = .allOnes 4 := by decide
  rw [← fieldN_eq, fieldN, fieldN, ← h, BitVec.extractLsb'_and, hmask, BitVec.and_allOnes]

theorem fieldKK_of_and_eq {w v : Word} (h : w &&& 0xF0FF = v) : fieldKK w = v.extractLsb' 0 8 := by
  have hmask : (0xF0FF : Word).extractLsb' 0 8 = .allOnes 8 := by decide
  rw [fieldKK, ← h, BitVec.extractLsb'_and, hmask, BitVec.and_allOnes]

/-- A word that matches a row decodes to an instruction of the row: the mask keeps the fields on which the
decoder dispatches (R73, R74). -/
theorem exists_decode_of_matches {w : Word} (i : Instr) (h : w &&& i.row.mask = i.row.value) :
    ∃ j, decode w = .instr j ∧ j.row = i.row := by
  have hop := fieldOp_of_matches h
  cases i with
  | cls | ret =>
    rw [show w = _ from BitVec.and_allOnes.symm.trans h]
    exact ⟨_, rfl, rfl⟩
  | jp | call | seImm | sneImm | ldImm | addImm | ldI | jpOff | rnd | drw =>
    simp [decode, hop, Instr.row]
  | seReg | sneReg =>
    have hn := fieldN_of_and_eq h
    simp [decode, hop, hn, Instr.row]
  | ldReg | orReg | andReg | xorReg | addReg | sub | shr | subn | shl =>
    have hn := fieldN_of_and_eq h
    simp [decode, hop, decodeAlu, hn, Instr.row]
  | skp | sknp =>
    have hkk := fieldKK_of_and_eq h
    simp [decode, hop, decodeKeys, hkk, Instr.row]
  | ldFromDT | waitKey | ldToDT | ldToST | addI | ldFont | bcd | store | load =>
    have hkk := fieldKK_of_and_eq h
    simp [decode, hop, decodeMisc, hkk, Instr.row]

/-- Settles O3: a decoded word matches its row, and a word that matches a row is decoded. -/
theorem decodeFollowsTheOpcodeTable : Obligations.DecodeFollowsTheOpcodeTable := by
  have hdecodes : ∀ (w : Word) (r : OpcodeRow), r ∈ opcodeTable → w &&& r.mask = r.value →
      ∃ i, decode w = .instr i ∧ i.row = r := by
    intro w r hr h
    obtain ⟨i, -, rfl⟩ := List.exists_of_mem_map hr
    exact exists_decode_of_matches i h
  refine ⟨rfl, fun w i h => ⟨row_mem_opcodeTable i, and_mask_of_decode h⟩, hdecodes, fun w => ⟨?_, ?_⟩⟩
  · intro hno
    obtain ⟨i, hi⟩ | hu := decode_cases w
    · exact absurd (and_mask_of_decode hi) (hno _ (row_mem_opcodeTable i))
    · exact hu
  · intro hu r hr h
    obtain ⟨i, hi, -⟩ := hdecodes w r hr h
    exact absurd (hu.symm.trans hi) (by simp)

/-- Settles O4: the word has one decoding, and that instruction has one row. -/
theorem noWordMatchesTwoRows : Obligations.NoWordMatchesTwoRows := by
  obtain ⟨-, -, hdecodes, -⟩ := decodeFollowsTheOpcodeTable
  intro w r r' hr hr' h h'
  obtain ⟨i, hi, rfl⟩ := hdecodes w r hr h
  obtain ⟨i', hi', rfl⟩ := hdecodes w r' hr' h'
  cases hi.symm.trans hi'
  rfl

/-! ### The unknown words -/

theorem ite_instr_eq_unknown {c : Prop} [Decidable c] {i : Instr} {d : Decoded} {w : Word} :
    (if c then .instr i else d) = .unknown w ↔ ¬ c ∧ d = .unknown w := by
  by_cases h : c <;> simp [h]

theorem decodeAlu_eq_unknown (w : Word) :
    decodeAlu w = .unknown w ↔ (fieldN w).val ∈ [0x8, 0x9, 0xA, 0xB, 0xC, 0xD, 0xF] := by
  unfold decodeAlu
  generalize fieldN w = n
  fin_cases n <;> simp

theorem decodeKeys_eq_unknown (w : Word) :
    decodeKeys w = .unknown w ↔ (fieldKK w).toNat ∉ [0x9E, 0xA1] := by
  simp [decodeKeys, ite_instr_eq_unknown, ← BitVec.toNat_inj]

theorem decodeMisc_eq_unknown (w : Word) : decodeMisc w = .unknown w ↔
    (fieldKK w).toNat ∉ [0x07, 0x0A, 0x15, 0x18, 0x1E, 0x29, 0x33, 0x55, 0x65] := by
  simp [decodeMisc, ite_instr_eq_unknown, ← BitVec.toNat_inj]

/-- Settles O5: the six sets are read as conditions on the fields of the word; then family by family. -/
theorem unknownWordsAreTheListedOnes : Obligations.UnknownWordsAreTheListedOnes := by
  intro w
  have hzero : w.toNat ≤ 0x0FFF ↔ fieldOp w = 0 := by rw [fieldOp_eq]; omega
  have hlt := fieldOp_lt w
  rw [hzero, ← fieldOp_eq, ← fieldN_eq, ← fieldKK_toNat, ← decodeAlu_eq_unknown, ← decodeKeys_eq_unknown,
    ← decodeMisc_eq_unknown, decode]
  clear hzero
  generalize fieldOp w = op at *
  interval_cases op <;> simp [ite_instr_eq_unknown]

/-- Settles O6: each of the words is decoded. -/
theorem wordsOfEveryFamilyDecode : Obligations.WordsOfEveryFamilyDecode := by
  unfold Obligations.WordsOfEveryFamilyDecode
  decide

end Sys2Proof

namespace Sys2Proof.Machine

/-! ### Every step answers -/

theorem exec_answers (i : Instr) (s : State) : ∃ t, exec i s = .next t :=
  (exec_answers_frame i s).imp fun _ h => h.1

theorem step_answers (s : State) : ∃ t, step s = .next t := by
  cases hs : s.status with
  | halted r => exact ⟨_, step_halted hs⟩
  | running =>
    cases hr : s.rangeFault s.pc.toNat 2 with
    | some a =>
      obtain ⟨hp, -, hlt, -⟩ := (State.rangeFault_eq_some ..).1 hr
      exact ⟨_, step_fetchFault hs hp hlt⟩
    | none =>
      have hin := (State.rangeFault_eq_none ..).1 hr
      obtain ⟨i, hi⟩ | hu := decode_cases s.fetchWord
      · obtain ⟨u, he⟩ := exec_answers i s.quiet.advance
        exact ⟨_, step_instr hs hin hi he⟩
      · exact ⟨_, step_unknown hs hin hu⟩

/-- Settles O45: `exec_answers_frame` for the execute phase, and the cases of a step. -/
theorem everyStepAnswersANextState : Obligations.EveryStepAnswersANextState :=
  ⟨exec_answers, step_answers⟩

end Sys2Proof.Machine
end

section
/-! PROOFS. The statements about the step cycle (40_step_cycle.md): the frame of every instruction, and the
unknown word. -/

namespace Sys2Proof.Machine

/-- Settles O46: the frame of `exec_frame`, without the canonical form of memory. -/
theorem everyInstructionKeepsTheRest : Obligations.EveryInstructionKeepsTheRest :=
  fun _ _ _ h => (exec_frame h).toOnlyChanges

/-! ### The unknown word -/

section
variable {regs : List Reg} {cells : List Nat} {parts : List Part} {s : State}

theorem frame_quiet (h : .out ∈ parts) : Frame regs cells parts s s.quiet :=
  .of_parts rfl rfl fun p hp => by cases p <;> simp_all [Part.same]

theorem frame_reportUnknown (h : .out ∈ parts) (w : Word) : Frame regs cells parts s (s.reportUnknown w) :=
  .of_parts rfl rfl fun p hp => by cases p <;> simp_all [Part.same]

theorem frame_timerTick (hDT : .DT ∈ parts) (hST : .ST ∈ parts) (hout : .out ∈ parts) :
    Frame regs cells parts s s.timerTick :=
  .of_parts rfl rfl fun p hp => by cases p <;> simp_all [Part.same]

end

/-- A step on an unknown word is four updates, none of which writes a register or memory (R93). -/
theorem frame_unknownStep (s : State) (w : Word) :
    Frame [] [] [.pc, .DT, .ST, .out] s (s.quiet.advance.reportUnknown w).timerTick :=
  (((frame_quiet (by decide)).trans (frame_setPc (by decide) _)).trans
    (frame_reportUnknown (by decide) w)).trans (frame_timerTick (by decide) (by decide) (by decide))

theorem step_unknown_ticks {s : State} {w : Word} (h : s.status = .running) (hin : s.inRange s.pc.toNat 2)
    (hd : decode s.fetchWord = .unknown w) :
    step s = .next (s.quiet.advance.reportUnknown w).timerTick := by
  rw [step_unknown h hin hd, State.endStep_running (s := s.quiet.advance.reportUnknown w) h]

/-- Settles O42: the step is the one of `step_unknown_ticks`, whose fields are read off and whose frame is
`frame_unknownStep`. -/
theorem unknownWordIsAReportedNoOp : Obligations.UnknownWordIsAReportedNoOp := by
  intro s hrun hin hunknown
  refine ⟨_, { A := s.quiet.advance.fetchAddress, w := s.fetchWord }, step_unknown_ticks hrun hin hunknown,
    rfl, rfl, ?pc, tickDown_toNat s.DT, tickDown_toNat s.ST, ?beep,
    (frame_unknownStep s s.fetchWord).toOnlyChanges⟩
  case pc => exact BitVec.toNat_add s.pc 2
  case beep => exact beq_iff_eq

end Sys2Proof.Machine
end

section
/-! PROOFS. The statements about the display (41_display.md): `00E0`, and the writers of the framebuffer and
the draw flag. -/

namespace Sys2Proof.Machine

theorem exec_cls (s : State) : exec .cls s = .next (s.setDisplay (Vector.replicate 32 0)) := rfl

/-- Settles O31: the next state is `setDisplay` of the framebuffer whose pixels are all 0. -/
theorem clearScreen : Obligations.ClearScreen :=
  ⟨decode_encode .cls, fun s => ⟨_, exec_cls s, fbPixel_clear, s.setDisplay_drawFlag _,
    (frame_setDisplay (by decide) (by decide) _).toOnlyChanges⟩⟩

/-! ### The writers of the framebuffer and the draw flag -/

section
variable {i : Instr} {x y : Reg} {n : Height} {s t : State}

theorem exec_cls_drawFlag (h : exec .cls s = .next t) : t.drawFlag = true := by
  cases (exec_cls s).symm.trans h
  exact s.setDisplay_drawFlag _

/-- `Dxyn` sets the draw flag when it completes, and keeps it when a fault ends it before it draws (R101,
R203). -/
theorem exec_drw_drawFlag (h : exec (.drw x y n) s = .next t) :
    (s.inRange s.I.toNat n.val ∧ t.drawFlag = true) ∨
      (¬ s.inRange s.I.toNat n.val ∧ t.drawFlag = s.drawFlag) := by
  cases h
  obtain ⟨hin, heq⟩ | ⟨hout, -, -, -, heq⟩ := s.access_cases s.I.toNat n.val (.drw x y n) _
  · exact .inl ⟨hin, by rw [heq]; rfl⟩
  · exact .inr ⟨hout, by rw [heq]; rfl⟩

theorem fb_mem_writtenParts : .fb ∈ writtenParts i ↔ i = .cls ∨ ∃ x y n, i = .drw x y n := by
  cases i <;> simp [writtenParts]

theorem drawFlag_mem_writtenParts : .drawFlag ∈ writtenParts i ↔ i = .cls ∨ ∃ x y n, i = .drw x y n := by
  cases i <;> simp [writtenParts]

/-- No execute phase clears the draw flag (R30, R102). -/
theorem exec_keeps_drawFlag_set (h : exec i s = .next t) (hs : s.drawFlag = true) : t.drawFlag = true := by
  by_cases hw : .drawFlag ∈ writtenParts i
  · obtain rfl | ⟨x, y, n, rfl⟩ := drawFlag_mem_writtenParts.1 hw
    · exact exec_cls_drawFlag h
    · obtain ⟨-, hset⟩ | ⟨-, hsame⟩ := exec_drw_drawFlag h
      · exact hset
      · exact hsame.trans hs
  · exact ((exec_frame h).parts_same .drawFlag hw).trans hs

end

/-- Settles O34: the frame of `exec_frame` for the other instructions, `exec_drw_drawFlag` for `Dxyn`. -/
theorem onlyClearAndDrawWriteTheDisplay : Obligations.OnlyClearAndDrawWriteTheDisplay := by
  intro i s t h
  refine ⟨?others, ?cls, ?drw, exec_keeps_drawFlag_set h⟩
  case others =>
    rintro ⟨hcls, hdrw⟩
    have hnot : ¬ (i = .cls ∨ ∃ x y n, i = .drw x y n) :=
      not_or.2 ⟨hcls, fun ⟨x, y, n, hi⟩ => hdrw x y n hi⟩
    exact ⟨(exec_frame h).parts_same .fb (mt fb_mem_writtenParts.1 hnot),
      (exec_frame h).parts_same .drawFlag (mt drawFlag_mem_writtenParts.1 hnot)⟩
  case cls =>
    rintro rfl
    exact exec_cls_drawFlag h
  case drw =>
    rintro x y n rfl hin
    obtain ⟨-, hset⟩ | ⟨hout, -⟩ := exec_drw_drawFlag h
    · exact hset
    · exact absurd hin hout

end Sys2Proof.Machine
end

section
/-! PROOFS. The statements about control flow (42_control_flow.md): the jump, the return and the four skips on an
immediate or on registers. -/

namespace Sys2Proof.Machine

/-! ### The words of the statements are the words the encoder packs (R71) -/

theorem wordNNN_eq_packNNN (op : BitVec 4) (nnn : Addr12) : wordNNN op.toNat nnn = packNNN op nnn := by
  rw [wordNNN, ← packNNN_toNat, BitVec.ofNat_toNat, BitVec.setWidth_eq]

theorem wordXKK_eq_packXKK (op : BitVec 4) (x : Reg) (kk : Byte) :
    wordXKK op.toNat x kk.toNat = packXKK op x kk := by
  rw [wordXKK, ← packXKK_toNat, BitVec.ofNat_toNat, BitVec.setWidth_eq]

theorem wordXYN_eq_packXYN (op : BitVec 4) (x y : Reg) (n : BitVec 4) :
    wordXYN op.toNat x y n.toNat = packXYN op x y n := by
  rw [wordXYN, ← packXYN_toNat, BitVec.ofNat_toNat, BitVec.setWidth_eq]

theorem decode_of_eq_encode {w : Word} {i : Instr} (h : w = encode i) : decode w = .instr i :=
  h ▸ decode_encode i

/-! ### The jump and the return -/

theorem exec_jp (nnn : Addr12) (s : State) : exec (.jp nnn) s = .next (s.setPc (zextAddr nnn)) := rfl

/-- Settles O15: the next state is `setPc` of the address. -/
theorem jumpLoadsThePc : Obligations.JumpLoadsThePc := fun nnn =>
  ⟨decode_of_eq_encode (wordNNN_eq_packNNN 0x1 nnn), fun s => ⟨_, exec_jp nnn s, zextAddr_toNat nnn,
    (frame_setPc List.mem_cons_self _).toOnlyChanges⟩⟩

/-- Settles O18: `00EE` by the stack, with an entry and without one. -/
theorem returnPopsThePc : Obligations.ReturnPopsThePc := by
  refine ⟨decode_encode .ret, ?entry, ?empty⟩
  case entry =>
    intro s v rest hs
    exact ⟨_, exec_ret_of_cons hs, rfl, rfl,
      ((frame_setStack (by decide) rest).trans (frame_setPc (by decide) v)).toOnlyChanges⟩
  case empty => exact fun s hs => ⟨_, _, exec_ret_of_nil hs, rfl, rfl⟩

/-! ### The skips -/

/-- A skip adds 2 to the pc mod 2^16, or nothing (R12, R91). -/
theorem skipIf_pc_toNat (s : State) (c : Bool) :
    (s.skipIf c).pc.toNat = (s.pc.toNat + if c then 2 else 0) % 0x10000 := by
  cases c with
  | false => exact (Nat.mod_eq_of_lt s.pc.isLt).symm
  | true => exact BitVec.toNat_add s.pc 2

/-- What the four skips have in common: an instruction that answers `skipIf` writes the pc only. -/
theorem answers_of_exec_skipIf {i : Instr} {s : State} {c : Bool} (h : exec i s = .next (s.skipIf c)) {d : Nat}
    (hd : (if c then 2 else 0) = d) :
    ∃ t, exec i s = .next t ∧ OnlyChanges [] [] [.pc] s t ∧ t.pc.toNat = (s.pc.toNat + d) % 0x10000 :=
  ⟨_, h, (frame_setPc List.mem_cons_self _).toOnlyChanges, hd ▸ skipIf_pc_toNat s c⟩

theorem exec_seImm (x : Reg) (kk : Byte) (s : State) :
    exec (.seImm x kk) s = .next (s.skipIf (s.getV x == kk)) := rfl

theorem exec_sneImm (x : Reg) (kk : Byte) (s : State) :
    exec (.sneImm x kk) s = .next (s.skipIf (s.getV x != kk)) := rfl

theorem exec_seReg (x y : Reg) (s : State) :
    exec (.seReg x y) s = .next (s.skipIf (s.getV x == s.getV y)) := rfl

theorem exec_sneReg (x y : Reg) (s : State) :
    exec (.sneReg x y) s = .next (s.skipIf (s.getV x != s.getV y)) := rfl

/-- The bytes skipped on equality; `ite_bne_byte` has its complement (R113 to R116). -/
theorem ite_beq_byte (a b : Byte) : (if a == b then 2 else 0) = if a = b then 2 else 0 := by
  simp only [beq_iff_eq]

theorem ite_bne_byte (a b : Byte) : (if a != b then 2 else 0) = if a = b then 0 else 2 := by
  simp only [bne_iff_ne, ne_eq, ite_not]

/-- Settles O20: both instructions answer `skipIf`, on equality and on its complement. -/
theorem skipsOnAnImmediate : Obligations.SkipsOnAnImmediate := fun x kk =>
  ⟨decode_of_eq_encode (wordXKK_eq_packXKK 0x3 x kk), decode_of_eq_encode (wordXKK_eq_packXKK 0x4 x kk), fun s =>
    ⟨answers_of_exec_skipIf (exec_seImm x kk s) (ite_beq_byte ..),
      answers_of_exec_skipIf (exec_sneImm x kk s) (ite_bne_byte ..)⟩⟩

/-- The decoder checks the lowest digit of the families 5 and 9 (R74, R115, R116). -/
theorem decode_eq_unknown_of_fieldN_ne_zero {w : Word} (hop : fieldOp w = 0x5 ∨ fieldOp w = 0x9)
    (hn : (fieldN w).val ≠ 0) : decode w = .unknown w := by
  obtain hop | hop := hop
  · simp only [decode, hop, if_neg hn]
  · simp only [decode, hop, if_neg hn]

/-- Settles O21: both instructions answer `skipIf`, and a near-miss word has a lowest digit that is not 0. -/
theorem skipsOnRegisters : Obligations.SkipsOnRegisters := by
  intro x y
  refine ⟨decode_of_eq_encode (wordXYN_eq_packXYN 0x5 x y 0), decode_of_eq_encode (wordXYN_eq_packXYN 0x9 x y 0),
    ?nearMiss, fun s => ⟨answers_of_exec_skipIf (exec_seReg x y s) (ite_beq_byte ..),
      answers_of_exec_skipIf (exec_sneReg x y s) (ite_bne_byte ..)⟩⟩
  intro n hpos hlt
  have hunknown (op : BitVec 4) (hop : op.toNat = 0x5 ∨ op.toNat = 0x9) :
      decode (wordXYN op.toNat x y n) = .unknown (wordXYN op.toNat x y n) := by
    have hpack := wordXYN_eq_packXYN op x y (BitVec.ofNatLT n hlt)
    rw [BitVec.toNat_ofNatLT] at hpack
    rw [hpack]
    refine decode_eq_unknown_of_fieldN_ne_zero ?_ ?_
    · rwa [fieldOp_packXYN]
    · rw [fieldN_packXYN]
      exact hpos.ne'
  exact ⟨hunknown 0x5 (by decide), hunknown 0x9 (by decide)⟩

end Sys2Proof.Machine
end

section
/-! PROOFS. The statements about the register ALU (43_alu.md) but the random byte: loads, moves, logic, the sum
with carry, and the four instructions that write VF first and Vx second. -/

namespace Sys2Proof.Machine

/-! ### Loads, moves and logic: one write to Vx -/

theorem onlyChanges_setV (x : Reg) (v : Byte) (s : State) : OnlyChanges [x] [] [] s (s.setV x v) :=
  (frame_setV List.mem_cons_self v).toOnlyChanges

theorem exec_ldImm (x : Reg) (kk : Byte) (s : State) : exec (.ldImm x kk) s = .next (s.setV x kk) := rfl

theorem exec_addImm (x : Reg) (kk : Byte) (s : State) :
    exec (.addImm x kk) s = .next (s.setV x (s.getV x + kk)) := rfl

theorem exec_ldReg (x y : Reg) (s : State) : exec (.ldReg x y) s = .next (s.setV x (s.getV y)) := rfl

theorem exec_orReg (x y : Reg) (s : State) :
    exec (.orReg x y) s = .next (s.setV x (s.getV x ||| s.getV y)) := rfl

theorem exec_andReg (x y : Reg) (s : State) :
    exec (.andReg x y) s = .next (s.setV x (s.getV x &&& s.getV y)) := rfl

theorem exec_xorReg (x y : Reg) (s : State) :
    exec (.xorReg x y) s = .next (s.setV x (s.getV x ^^^ s.getV y)) := rfl

/-- Settles O7: both answers are one `setV` of Vx. -/
theorem loadAndAddImmediate : Obligations.LoadAndAddImmediate := by
  intro x kk
  refine ⟨decode_of_eq_encode (wordXKK_eq_packXKK 0x6 x kk), decode_of_eq_encode (wordXKK_eq_packXKK 0x7 x kk),
    fun s => ⟨?load, ?add⟩⟩
  case load => exact ⟨_, exec_ldImm x kk s, s.getV_setV_same x kk, onlyChanges_setV ..⟩
  case add =>
    refine ⟨_, exec_addImm x kk s, ?_, onlyChanges_setV ..⟩
    rw [State.getV_setV_same]
    exact BitVec.toNat_add ..

/-- Settles O8: the four answers are one `setV` of Vx. -/
theorem registerMoveAndLogic : Obligations.RegisterMoveAndLogic := by
  intro x y
  refine ⟨decode_of_eq_encode (wordXYN_eq_packXYN 0x8 x y 0x0), decode_of_eq_encode (wordXYN_eq_packXYN 0x8 x y 0x1),
    decode_of_eq_encode (wordXYN_eq_packXYN 0x8 x y 0x2), decode_of_eq_encode (wordXYN_eq_packXYN 0x8 x y 0x3),
    fun s => ⟨?move, ?or, ?and, ?xor⟩⟩
  case move => exact ⟨_, exec_ldReg x y s, s.getV_setV_same x _, onlyChanges_setV ..⟩
  case or =>
    exact ⟨_, exec_orReg x y s, onlyChanges_setV .., fun b => by rw [State.getV_setV_same, BitVec.getLsbD_or]⟩
  case and =>
    exact ⟨_, exec_andReg x y s, onlyChanges_setV .., fun b => by rw [State.getV_setV_same, BitVec.getLsbD_and]⟩
  case xor =>
    exact ⟨_, exec_xorReg x y s, onlyChanges_setV .., fun b => by rw [State.getV_setV_same, BitVec.getLsbD_xor]⟩

/-! ### The flags as numbers (R137) -/

theorem carryFlag_toNat (a b : Byte) : (carryFlag a b).toNat = if a.toNat + b.toNat > 0xFF then 1 else 0 := by
  simp only [carryFlag, flagByte_toNat, decide_eq_true_eq]

theorem noBorrowFlag_toNat (a b : Byte) : (noBorrowFlag a b).toNat = if a.toNat > b.toNat then 1 else 0 := by
  simp only [noBorrowFlag, flagByte_toNat, decide_eq_true_eq]

theorem flagByte_getLsbD_toNat (v : Byte) (k : Nat) : (flagByte (v.getLsbD k)).toNat = v.toNat / 2 ^ k % 2 := by
  rw [← Nat.toNat_testBit, ← BitVec.getLsbD]
  cases v.getLsbD k <;> rfl

theorem shiftOutRight_toNat (v : Byte) : (shiftOutRight v).toNat = v.toNat % 2 := by
  rw [shiftOutRight, flagByte_getLsbD_toNat, Nat.pow_zero, Nat.div_one]

theorem shiftOutLeft_toNat (v : Byte) : (shiftOutLeft v).toNat = v.toNat / 0x80 := by
  have hlt := v.isLt
  rw [shiftOutLeft, flagByte_getLsbD_toNat]
  omega

/-! ### The sum: Vx first, the carry last -/

theorem exec_addReg (x y : Reg) (s : State) : exec (.addReg x y) s =
    .next ((s.setV x (s.getV x + s.getV y)).setV VF (carryFlag (s.getV x) (s.getV y))) := rfl

/-- Settles O9: the carry is the last write, so it stands in VF for every x. -/
theorem addRegistersWithCarry : Obligations.AddRegistersWithCarry := by
  refine fun x y => ⟨decode_of_eq_encode (wordXYN_eq_packXYN 0x8 x y 0x4), fun s =>
    ⟨_, exec_addReg x y s, ?frame, ?carry, ?sum⟩⟩
  case frame => exact ((frame_setV (by simp) _).trans (frame_setV (by simp) _)).toOnlyChanges
  case carry => rw [State.getV_setV_same, carryFlag_toNat]
  case sum =>
    intro hx
    rw [State.getV_setV_other _ hx, State.getV_setV_same]
    exact BitVec.toNat_add ..

/-! ### VF first, Vx second (R136) -/

section
variable {i : Instr} {x y : Reg} {s : State}

/-- What `8xy5`, `8xy6`, `8xy7` and `8xyE` have in common, in numbers: the flag `f` stands in VF unless the
result overwrites it, and the result `d` of two operands reads it for VF under `sequential` only. -/
theorem answers_of_exec_flagThenResult {flag result : Byte → Byte → Byte} {f : Nat} {d : Nat → Nat → Nat}
    (h : exec i s = .next (s.flagThenResult x y flag result))
    (hflag : (flag (s.getV x) (s.getV y)).toNat = f)
    (hresult : ∀ u v, (result u v).toNat = d u.toNat v.toNat) :
    ∃ t, exec i s = .next t ∧ OnlyChanges [x, VF] [] [] s t ∧
      (x ≠ VF → (t.getV VF).toNat = f) ∧
      (s.cfg.aluAlias = .latched → (t.getV x).toNat = d (s.getV x).toNat (s.getV y).toNat) ∧
      (s.cfg.aluAlias = .sequential → (t.getV x).toNat =
        d (if x = VF then f else (s.getV x).toNat) (if y = VF then f else (s.getV y).toNat)) := by
  refine ⟨_, h, (frame_flagThenResult y (by simp) (by simp) flag result).toOnlyChanges, ?flag, ?latched,
    ?sequential⟩
  case flag =>
    intro hx
    rw [State.flagThenResult_getV, if_neg hx.symm, if_pos rfl, hflag]
  case latched =>
    intro hmode
    simp only [State.flagThenResult_getV, if_true, hmode, hresult]
  case sequential =>
    intro hmode
    simp only [State.flagThenResult_getV, if_true, hmode, hresult, apply_ite BitVec.toNat, hflag]

end

theorem exec_sub (x y : Reg) (s : State) :
    exec (.sub x y) s = .next (s.flagThenResult x y noBorrowFlag (fun vx vy => vx - vy)) := rfl

theorem exec_subn (x y : Reg) (s : State) : exec (.subn x y) s =
    .next (s.flagThenResult x y (fun vx vy => noBorrowFlag vy vx) (fun vx vy => vy - vx)) := rfl

theorem toNat_sub_byte (a b : Byte) : (a - b).toNat = (a.toNat + 0x100 - b.toNat) % 0x100 := by
  have hlt := b.isLt
  rw [BitVec.toNat_sub]
  omega

/-- Settles O10: `answers_of_exec_flagThenResult` for Vx - Vy. -/
theorem subtractWithNoBorrowFlag : Obligations.SubtractWithNoBorrowFlag := by
  refine fun x y => ⟨decode_of_eq_encode (wordXYN_eq_packXYN 0x8 x y 0x5), ?_⟩
  rintro s a b f rfl rfl rfl
  exact answers_of_exec_flagThenResult (d := fun a b => (a + 0x100 - b) % 0x100) (exec_sub x y s)
    (noBorrowFlag_toNat ..) toNat_sub_byte

/-- Settles O11: `answers_of_exec_flagThenResult` for Vy - Vx. -/
theorem subtractReversedWithNoBorrowFlag : Obligations.SubtractReversedWithNoBorrowFlag := by
  refine fun x y => ⟨decode_of_eq_encode (wordXYN_eq_packXYN 0x8 x y 0x7), ?_⟩
  rintro s a b f rfl rfl rfl
  exact answers_of_exec_flagThenResult (d := fun a b => (b + 0x100 - a) % 0x100) (exec_subn x y s)
    (noBorrowFlag_toNat ..) fun vx vy => toNat_sub_byte vy vx

/-! ### The shifts: the quirk chooses the source (R140, R142) -/

section
variable {i : Instr} {x y src : Reg} {s : State}

/-- What the two shifts have in common, in numbers: `f` of the source is the flag and `d` of it the result. -/
theorem answers_of_exec_shift {flag result : Byte → Byte} {f d : Nat → Nat} {a : Nat}
    (h : exec i s = .next (s.flagThenResult x y (fun vx vy => flag (s.shiftSource vx vy))
      (fun vx vy => result (s.shiftSource vx vy))))
    (hflag : ∀ v, (flag v).toNat = f v.toNat) (hresult : ∀ v, (result v).toNat = d v.toNat)
    (hsrc : src = if s.cfg.quirks.shiftUsesVy then y else x) (ha : a = (s.getV src).toNat) :
    ∃ t, exec i s = .next t ∧ OnlyChanges [x, VF] [] [] s t ∧
      (x ≠ VF → (t.getV VF).toNat = f a) ∧
      (s.cfg.aluAlias = .latched → (t.getV x).toNat = d a) ∧
      (s.cfg.aluAlias = .sequential → (t.getV x).toNat = d (if src = VF then f a else a)) := by
  subst hsrc ha
  cases hq : s.cfg.quirks.shiftUsesVy with
  | false =>
    simp only [State.shiftSource, hq, Bool.false_eq_true, if_false] at h ⊢
    exact answers_of_exec_flagThenResult (d := fun vx _ => d vx) h (hflag _) fun vx _ => hresult vx
  | true =>
    simp only [State.shiftSource, hq, if_true] at h ⊢
    exact answers_of_exec_flagThenResult (d := fun _ vy => d vy) h (hflag _) fun _ vy => hresult vy

end

theorem exec_shr (x y : Reg) (s : State) : exec (.shr x y) s =
    .next (s.flagThenResult x y (fun vx vy => shiftOutRight (s.shiftSource vx vy))
      (fun vx vy => s.shiftSource vx vy >>> 1)) := rfl

theorem exec_shl (x y : Reg) (s : State) : exec (.shl x y) s =
    .next (s.flagThenResult x y (fun vx vy => shiftOutLeft (s.shiftSource vx vy))
      (fun vx vy => s.shiftSource vx vy <<< 1)) := rfl

theorem toNat_shiftRight_one (v : Byte) : (v >>> 1).toNat = v.toNat / 2 := by
  rw [BitVec.toNat_ushiftRight, Nat.shiftRight_one]

theorem toNat_shiftLeft_one (v : Byte) : (v <<< 1).toNat = v.toNat * 2 % 0x100 := by
  rw [BitVec.toNat_shiftLeft, Nat.shiftLeft_eq, Nat.pow_one]

/-- Settles O12: `answers_of_exec_shift` for the half and bit 0. -/
theorem shiftRightByOne : Obligations.ShiftRightByOne := by
  refine fun x y => ⟨decode_of_eq_encode (wordXYN_eq_packXYN 0x8 x y 0x6), fun s src a hsrc ha => ?_⟩
  exact answers_of_exec_shift (f := (· % 2)) (d := (· / 2)) (exec_shr x y s) shiftOutRight_toNat
    toNat_shiftRight_one hsrc ha

/-- Settles O13: `answers_of_exec_shift` for the double and bit 7. -/
theorem shiftLeftByOne : Obligations.ShiftLeftByOne := by
  refine fun x y => ⟨decode_of_eq_encode (wordXYN_eq_packXYN 0x8 x y 0xE), fun s src a hsrc ha => ?_⟩
  exact answers_of_exec_shift (f := (· / 0x80)) (d := (· * 2 % 0x100)) (exec_shl x y s) shiftOutLeft_toNat
    toNat_shiftLeft_one hsrc ha

end Sys2Proof.Machine
end

section
/-! PROOFS. The statements about the index register and memory transfer (44_index_memory.md): `Annn`, the decimal
digits, and the transfers of V0 to Vx to and from memory. -/

namespace Sys2Proof.Machine

theorem exec_ldI (nnn : Addr12) (s : State) : exec (.ldI nnn) s = .next (s.setI (zextAddr nnn)) := rfl

/-- Settles O23: the next state is `setI` of the address. -/
theorem loadIndexImmediate : Obligations.LoadIndexImmediate := fun nnn =>
  ⟨decode_of_eq_encode (wordNNN_eq_packNNN 0xA nnn), fun s => ⟨_, exec_ldI nnn s, zextAddr_toNat nnn,
    (frame_setI List.mem_cons_self _).toOnlyChanges⟩⟩

/-! ### The memory instructions: an effect, or a fault before the first access (R203) -/

section
variable {i : Instr} {base k : Nat} {effect : State → State} {s : State}

/-- An access whose last byte is `base + k` has its effect when that byte lies inside memory or wraps. -/
theorem exec_access_of_inside (h : exec i s = .next (s.access base (k + 1) i effect))
    (hin : s.cfg.memOob = .wrap ∨ base + k < 4096) : exec i s = .next (effect s) := by
  rw [h, State.access_inRange (hin.imp_right .inr)]

/-- When its last byte is out of range, the engine is halted and the effect does not happen. -/
theorem exec_access_of_outside (h : exec i s = .next (s.access base (k + 1) i effect))
    (hout : s.cfg.memOob = .fault ∧ 4096 ≤ base + k) :
    exec i s = .next (s.raise (.addressOutOfRange (max base 4096)) i) := by
  obtain ⟨hpolicy, hend⟩ := hout
  rw [h, State.access_outOfRange hpolicy k.succ_pos (Nat.lt_succ_of_le hend)]

end

theorem exec_bcd (x : Reg) (s : State) : exec (.bcd x) s = .next (s.access s.I.toNat 3 (.bcd x)
    fun t => t.writeBytes t.I.toNat (decimalDigits (t.getV x))) := rfl

theorem exec_store (x : Reg) (s : State) : exec (.store x) s = .next (s.access s.I.toNat (x.val + 1) (.store x)
    fun t => (t.writeBytes t.I.toNat ((regsUpTo x).map t.getV)).advanceIndex x) := rfl

theorem exec_load (x : Reg) (s : State) : exec (.load x) s = .next (s.access s.I.toNat (x.val + 1) (.load x)
    fun t => (t.loadRegs x).advanceIndex x) := rfl

/-! ### The decimal digits -/

theorem length_decimalDigits (v : Byte) : (decimalDigits v).length = 3 := rfl

theorem decimalDigits_toNat (v : Byte) :
    (decimalDigits v).map BitVec.toNat = [v.toNat / 100, v.toNat / 10 % 10, v.toNat % 10] := by
  have hlt := v.isLt
  simp only [decimalDigits, List.map_cons, List.map_nil, BitVec.toNat_ofNat, List.cons.injEq, and_true]
  omega

theorem readByte_writeBytes_decimalDigits {s : State} (hs : s.mem.wf) (base : Nat) (v : Byte) {k : Nat}
    (hk : k < 3) : ((s.writeBytes base (decimalDigits v)).readByte (base + k)).toNat =
      [v.toNat / 100, v.toNat / 10 % 10, v.toNat % 10][k] := by
  have hsize : (decimalDigits v).length ≤ memSize := (length_decimalDigits v).trans_le (by decide)
  rw [State.readByte_writeBytes hs hsize (hk.trans_eq (length_decimalDigits v).symm),
    ← List.getElem_map BitVec.toNat (l := decimalDigits v) (h := hk)]
  simp only [decimalDigits_toNat]

/-- Settles O26: the bytes written are read back as the digits, and the range check comes before them. -/
theorem storeDecimalDigits : Obligations.StoreDecimalDigits := by
  refine fun x => ⟨decode_of_eq_encode (wordXKK_eq_packXKK 0xF x 0x33), fun s hs => ⟨fun hin => ?inside,
    fun hout => ?outside⟩⟩
  case inside =>
    have hdigit {k : Nat} (hk : k < 3) := readByte_writeBytes_decimalDigits hs s.I.toNat (s.getV x) hk
    exact ⟨_, exec_access_of_inside (exec_bcd x s) hin, hdigit (k := 0) (by decide), hdigit (k := 1) (by decide),
      hdigit (k := 2) (by decide), Frame.toOnlyChanges (frame_writeBytes fun _ => mem_cellsFrom)⟩
  case outside => exact ⟨_, _, _, exec_access_of_outside (exec_bcd x s) hout, rfl, rfl⟩

/-! ### The register transfers -/

/-- `I` grows by x + 1 mod 2^16 under the quirk (R164, R165). -/
theorem advanceIndex_I_toNat (s : State) (x : Reg) : (s.advanceIndex x).I.toNat =
    if s.cfg.quirks.fx55IncreasesI then (s.I.toNat + x.val + 1) % 0x10000 else s.I.toNat := by
  cases hq : s.cfg.quirks.fx55IncreasesI with
  | false => simp [hq]
  | true => simp [hq, BitVec.toNat_add, Nat.add_assoc]

theorem getElem_regsUpTo {x r : Reg} (h : r.val < (regsUpTo x).length) : (regsUpTo x)[r.val] = r := by
  simp only [regsUpTo_eq, List.getElem_ofFn]

/-- `Fx55`'s transfer: byte `base + r` is V[r] (R164). -/
theorem readByte_writeBytes_regsUpTo {s : State} (hs : s.mem.wf) (base : Nat) {x r : Reg} (hr : r ≤ x) :
    (s.writeBytes base ((regsUpTo x).map s.getV)).readByte (base + r.val) = s.getV r := by
  have hlen : ((regsUpTo x).map s.getV).length = x.val + 1 := by rw [List.length_map, length_regsUpTo]
  have hmem : x.val + 1 ≤ memSize := x.isLt.trans_le (by decide)
  rw [State.readByte_writeBytes hs (hlen ▸ hmem) (hlen ▸ Nat.lt_succ_of_le hr), List.getElem_map,
    getElem_regsUpTo]

/-- Settles O27: the registers written are read back, and the range check comes before them. -/
theorem storeRegisters : Obligations.StoreRegisters := by
  refine fun x => ⟨decode_of_eq_encode (wordXKK_eq_packXKK 0xF x 0x55), fun s hs => ⟨fun hin => ?inside,
    fun hout => ?outside⟩⟩
  case inside =>
    refine ⟨_, exec_access_of_inside (exec_store x s) hin,
      fun r hr => readByte_writeBytes_regsUpTo hs s.I.toNat hr, ?index, ?frame⟩
    case index => rw [advanceIndex_I_toNat, State.writeBytes_cfg, State.writeBytes_I]
    case frame =>
      refine ((frame_writeBytes fun k hk => mem_cellsFrom ?_).trans (frame_setI List.mem_cons_self _)).toOnlyChanges
      rwa [List.length_map, length_regsUpTo] at hk
  case outside =>
    exact ⟨_, _, _, exec_access_of_outside (exec_store x s) hout, rfl, rfl, fun _ => rfl⟩

/-- Settles O28: `loadRegs_getV` for the registers, and the range check comes before them. -/
theorem loadRegisters : Obligations.LoadRegisters := by
  refine fun x => ⟨decode_of_eq_encode (wordXKK_eq_packXKK 0xF x 0x65), fun s => ⟨fun hin => ?inside,
    fun hout => ?outside⟩⟩
  case inside =>
    refine ⟨_, exec_access_of_inside (exec_load x s) hin, fun r hr => (s.loadRegs_getV x r).trans (if_pos hr),
      fun r hr => (s.loadRegs_getV x r).trans (if_neg (Nat.not_le_of_lt hr)), ?index, ?frame⟩
    case index => rw [advanceIndex_I_toNat, State.loadRegs_eq]
    case frame =>
      refine ((frame_loadRegs fun q hq => ?_).trans (frame_setI List.mem_cons_self _)).toOnlyChanges
      exact List.mem_filter.2 ⟨List.mem_finRange q, decide_eq_true hq⟩
  case outside =>
    exact ⟨_, _, _, exec_access_of_outside (exec_load x s) hout, rfl, rfl, fun _ => rfl⟩

end Sys2Proof.Machine
end

section
/-! PROOFS. The statements about the keypad and the timers (45_keys_timers.md): the timers read and written, and
the wait for a key. -/

namespace Sys2Proof.Machine

/-! ### The timers -/

theorem exec_ldFromDT (x : Reg) (s : State) : exec (.ldFromDT x) s = .next (s.setV x s.DT) := rfl

theorem exec_ldToDT (x : Reg) (s : State) : exec (.ldToDT x) s = .next (s.setDT (s.getV x)) := rfl

theorem exec_ldToST (x : Reg) (s : State) : exec (.ldToST x) s = .next (s.setST (s.getV x)) := rfl

/-- Settles O37: each of the three answers one update of the state, with the value and the frame of that update. -/
theorem timersAreReadAndSet : Obligations.TimersAreReadAndSet := by
  refine fun x => ⟨decode_of_eq_encode (wordXKK_eq_packXKK 0xF x 0x07),
    decode_of_eq_encode (wordXKK_eq_packXKK 0xF x 0x15), decode_of_eq_encode (wordXKK_eq_packXKK 0xF x 0x18),
    fun s => ⟨?fromDT, ?toDT, ?toST⟩⟩
  case fromDT =>
    exact ⟨_, exec_ldFromDT x s, s.getV_setV_same x s.DT, (frame_setV List.mem_cons_self _).toOnlyChanges⟩
  case toDT =>
    exact ⟨_, exec_ldToDT x s, s.setDT_DT (s.getV x), (frame_setDT List.mem_cons_self _).toOnlyChanges⟩
  case toST =>
    exact ⟨_, exec_ldToST x s, s.setST_ST (s.getV x), (frame_setST List.mem_cons_self _).toOnlyChanges⟩

/-! ### The wait for a key -/

/-- The rewind of `Fx0A`, mod 2^16 (R12, R183). -/
theorem toNat_sub_two_word (v : Word) : (v - 2).toNat = (v.toNat + 0x10000 - 2) % 0x10000 := by
  have htwo : (2 : Word).toNat = 2 := rfl
  rw [BitVec.toNat_sub, htwo]
  omega

theorem toNat_byte_of_key (k : Key) : (BitVec.ofNat 8 k.val).toNat = k.val := by
  rw [BitVec.toNat_ofNat, Nat.mod_eq_of_lt (k.isLt.trans (by decide))]

/-- Settles O39: the lowest key down, by `lowestKeyDown_eq_none` and `lowestKeyDown_eq_some`, decides which of the
two updates is answered. -/
theorem waitForAKey : Obligations.WaitForAKey := by
  refine fun x => ⟨decode_of_eq_encode (wordXKK_eq_packXKK 0xF x 0x0A), fun s => ⟨fun hnone => ?noKey,
    fun k hdown hlow => ?key⟩⟩
  case noKey =>
    exact ⟨_, exec_waitKey_of_noKey (State.lowestKeyDown_eq_none.2 hnone) x,
      (frame_setPc List.mem_cons_self _).toOnlyChanges, toNat_sub_two_word s.pc⟩
  case key =>
    refine ⟨_, exec_waitKey_of_key (State.lowestKeyDown_eq_some.2 ⟨hdown, hlow⟩) x, ?value,
      (frame_setV List.mem_cons_self _).toOnlyChanges⟩
    rw [State.getV_setV_same, toNat_byte_of_key]

end Sys2Proof.Machine
end

section
/-! PROOFS. The statements about the exceptions and the host's ports (60_exceptions.md): the fatal fault of `00EE`,
the timer tick that ends a completed step, and the framebuffer port. -/

namespace Sys2Proof.Machine

/-! ### Steps that a fatal fault ends, and steps that complete -/

section
variable {i : Instr} {s u : State}

/-- No instruction that can raise a fatal fault writes a timer (R184, R185). -/
theorem timers_unwritten_of_status_written (h : .status ∈ writtenParts i) :
    .DT ∉ writtenParts i ∧ .ST ∉ writtenParts i := by
  cases i <;> simp_all [writtenParts]

/-- An execute phase that halts a running engine leaves both timers as they were (R95). -/
theorem exec_timers_of_halted {r : FaultRecord} (h : exec i s = .next u) (hs : s.status = .running)
    (hu : u.status = .halted r) : u.DT = s.DT ∧ u.ST = s.ST := by
  have hwritten : .status ∈ writtenParts i := by
    by_contra hnot
    have hsame : u.status = s.status := (exec_frame h).parts_same .status hnot
    simp [hs, hu] at hsame
  obtain ⟨hDT, hST⟩ := timers_unwritten_of_status_written hwritten
  exact ⟨(exec_frame h).parts_same .DT hDT, (exec_frame h).parts_same .ST hST⟩

variable (hrun : s.status = .running) (hin : s.inRange s.pc.toNat 2) (hd : decode s.fetchWord = .instr i)
  (he : exec i s.quiet.advance = .next u)
include hrun hin hd he

/-- A completed step ends with the tick (R90, R210). -/
theorem step_instr_ticks (hu : u.status = .running) : step s = .next u.timerTick := by
  rw [step_instr hrun hin hd he, State.endStep_running hu]

/-- A step that a fatal fault ends has no tick (R95). -/
theorem step_instr_halts {r : FaultRecord} (hu : u.status = .halted r) : step s = .next u := by
  rw [step_instr hrun hin hd he, State.endStep_halted hu]

end

/-- Settles O19: the execute phase raises StackUnderflow, and the step ends with it; its `A` is the pc, advanced and
back. -/
theorem returnOnAnEmptyStackEndsTheStep : Obligations.ReturnOnAnEmptyStackEndsTheStep := by
  intro s hrun hin hfetch hstack
  have hd : decode s.fetchWord = .instr .ret := decode_of_eq_encode hfetch
  have he := exec_ret_of_nil (s := s.quiet.advance) hstack
  exact ⟨_, _, step_instr_halts hrun hin hd he rfl, rfl, rfl, BitVec.add_sub_cancel s.pc 2, rfl, rfl, rfl, rfl⟩

/-- Settles O43: the fields and the frame of the tick, `step_instr_ticks` or `step_instr_halts` for an instruction,
and `step_unknown_ticks` for an unknown word. -/
theorem everyCompletedStepTicks : Obligations.EveryCompletedStepTicks := by
  refine ⟨fun s => ?tick, fun s u i hrun hin hd he => ⟨step_instr_ticks hrun hin hd he, fun r hu => ?halted⟩,
    fun s w hrun hin hd => step_unknown_ticks hrun hin hd⟩
  case tick =>
    exact ⟨tickDown_toNat s.DT, tickDown_toNat s.ST, beq_iff_eq, rfl,
      (frame_timerTick (by decide) (by decide) (by decide)).toOnlyChanges⟩
  case halted =>
    have hout : u.out = .silent := exec_out he
    obtain ⟨hDT, hST⟩ := exec_timers_of_halted he hrun hu
    exact ⟨step_instr_halts hrun hin hd he hu, hDT, hST, by rw [hout]⟩

/-! ### The framebuffer port -/

/-- Settles O57: column and row are the remainder and the quotient of the index by 64 (R29). -/
theorem framebufferPortIsRowMajor : Obligations.FramebufferPortIsRowMajor := by
  intro s px py
  have hcol : (py.val * 64 + px.val) % 64 = px.val := by omega
  have hrow : (py.val * 64 + px.val) / 64 = py.val := by omega
  simp only [State.framebufferPort, Vector.getElem_ofFn, hcol, hrow]

end Sys2Proof.Machine
end

section
/-! PROOFS. The statements about reset and program loading (70_reset_and_hazards.md): the reset state meets the
invariant, and `load_program` copies the whole image or changes nothing. -/

namespace Sys2Proof.Machine

/-- Settles O53: reset lists no byte of memory, holds no stack entry, and runs (R230). -/
theorem resetMeetsTheInvariant : Obligations.ResetMeetsTheInvariant where
  mem_wf := ⟨.nil, fun _ hp => nomatch hp⟩
  stack_depth := Nat.zero_le 16
  halted_quiet _ hr := nomatch hr

/-! ### The two results of `load_program` -/

/-- The space from 0x200 to the end of memory holds 3584 bytes (R232). -/
theorem imageWf_iff {image : List Byte} : imageWf image = true ↔ image.length ≤ 3584 := by
  simp only [imageWf, decide_eq_true_eq, progBase, memSize]
  omega

theorem loadProgram_of_fits {image : List Byte} (h : image.length ≤ 3584) (s : State) :
    s.loadProgram image = .ok (s.writeBytes progBase image) :=
  if_pos (imageWf_iff.2 h)

theorem loadProgram_of_tooLarge {image : List Byte} (h : 3584 < image.length) (s : State) :
    s.loadProgram image = .programTooLarge image.length :=
  if_neg (mt imageWf_iff.1 (Nat.not_le.2 h))

/-- Settles O56: an image that fits is written by `writeBytes`, whose bytes read back because fewer than 4096 are
written, and whose frame is `frame_writeBytes`. -/
theorem loadProgramCopiesAllOrNothing : Obligations.LoadProgramCopiesAllOrNothing := by
  intro s image hmem
  refine ⟨fun hlarge => ?tooLarge, fun hfits => ?fits⟩
  case tooLarge =>
    have hload := loadProgram_of_tooLarge hlarge s
    exact ⟨hload, by rw [hostAct, hload]⟩
  case fits =>
    have hload := loadProgram_of_fits hfits s
    have hlen : image.length ≤ memSize := Nat.le_trans hfits (by decide)
    exact ⟨_, hload, by rw [hostAct, hload], fun _ hk => State.readByte_writeBytes hmem hlen hk,
      (frame_writeBytes fun _ => mem_cellsFrom).toOnlyChanges⟩

end Sys2Proof.Machine
end

section
/-! PROOFS. What a raised fault leaves: the statements of several files speak of it as `HaltedBy`. -/

namespace Sys2Proof.Machine

section
variable {i : Instr} {w : Word} (hw : w = encode i) {s : State}
include hw

/-- A fault raised in the execute phase of `i` writes the run status and nothing else (R95, log 3). -/
theorem haltedBy_raise (c : FatalCause) : HaltedBy c w s (s.raise c i) :=
  ⟨by rw [hw]; rfl, (frame_raise List.mem_cons_self c i).toOnlyChanges⟩

/-- A memory instruction whose last byte is out of range is halted before its effect (R203). -/
theorem exec_access_halts {base count : Nat} {effect : State → State}
    (h : exec i s = .next (s.access base count i effect)) (hpolicy : s.cfg.memOob = .fault) (hpos : 0 < count)
    (hout : 4096 < base + count) :
    ∃ t, exec i s = .next t ∧ HaltedBy (.addressOutOfRange (max base 4096)) w s t :=
  ⟨_, by rw [h, State.access_outOfRange hpolicy hpos hout], haltedBy_raise hw _⟩

end

end Sys2Proof.Machine
end

section
/-! PROOFS. The random byte of the register ALU (43_alu.md section 5). -/

namespace Sys2Proof.Machine

theorem exec_rnd (x : Reg) (kk : Byte) (s : State) :
    exec (.rnd x kk) s = .next (s.setV x (Config.freeRandomByte s.draws &&& kk)).countDraw := rfl

/-- Settles O14: the draw's byte is masked in the one write to Vx, whatever the byte is. -/
theorem randomByteIsMasked : Obligations.RandomByteIsMasked := by
  refine fun x kk => ⟨decode_of_eq_encode (wordXKK_eq_packXKK 0xC x kk), fun s => ?_⟩
  have hvalue := s.getV_setV_same x (Config.freeRandomByte s.draws &&& kk)
  refine ⟨_, exec_rnd x kk s, ?frame, rfl, hvalue, fun b hb => ?masked⟩
  case frame => exact ((frame_setV List.mem_cons_self _).trans (frame_countDraw List.mem_cons_self)).toOnlyChanges
  case masked => rw [State.countDraw_getV, hvalue, BitVec.getLsbD_and, hb, Bool.and_false]

end Sys2Proof.Machine
end

section
/-! PROOFS. The statements about control flow (42_control_flow.md) that are left: the call, with room on the stack
and without, and the jump with an offset. -/

namespace Sys2Proof.Machine

/-- Settles O16: with room, `2nnn` pushes the pc and loads the address. -/
theorem callPushesTheReturnAddress : Obligations.CallPushesTheReturnAddress := fun nnn =>
  ⟨decode_of_eq_encode (wordNNN_eq_packNNN 0x2 nnn), fun _ hroom =>
    ⟨_, exec_call_of_room hroom nnn, rfl, zextAddr_toNat nnn,
      ((frame_setStack (by decide) _).trans (frame_setPc (by decide) _)).toOnlyChanges⟩⟩

/-- Settles O17: on a full stack, `2nnn` raises StackOverflow. -/
theorem callOnAFullStackHalts : Obligations.CallOnAFullStackHalts := fun nnn _ hfull =>
  ⟨_, exec_call_of_full hfull.ge nnn, haltedBy_raise (wordNNN_eq_packNNN 0x2 nnn) _⟩

theorem exec_jpOff (nnn : Addr12) (s : State) :
    exec (.jpOff nnn) s = .next (s.setPc (zextAddr nnn + zextByte (s.getV (s.offsetReg nnn)))) := rfl

/-- The register of `Bnnn`: V0, or the one the top nibble of nnn names (R117). -/
theorem offsetReg_val (s : State) (nnn : Addr12) :
    (s.offsetReg nnn).val = if s.cfg.quirks.bnnnUsesVx then nnn.toNat / 0x100 else 0 := by
  have hlt := nnn.isLt
  unfold State.offsetReg
  split
  · change (nnn.extractLsb' 8 4).toNat = nnn.toNat / 0x100
    rw [BitVec.extractLsb'_toNat, Nat.shiftRight_eq_div_pow]
    omega
  · rfl

/-- The target of `Bnnn` does not wrap: it is at most 0xFFF + 0xFF (the spec's decision D3). -/
theorem zextAddr_add_zextByte_toNat (nnn : Addr12) (v : Byte) :
    (zextAddr nnn + zextByte v).toNat = nnn.toNat + v.toNat := by
  have hnnn := nnn.isLt
  have hv := v.isLt
  rw [BitVec.toNat_add, zextAddr_toNat, zextByte_toNat]
  omega

/-- Settles O22: the register is the one of `offsetReg_val`, and the sum is exact. -/
theorem jumpWithOffset : Obligations.JumpWithOffset := by
  refine fun nnn => ⟨decode_of_eq_encode (wordNNN_eq_packNNN 0xB nnn), fun s r hr => ?_⟩
  obtain rfl : r = s.offsetReg nnn := Fin.ext (hr.trans (offsetReg_val s nnn).symm)
  exact ⟨_, exec_jpOff nnn s, zextAddr_add_zextByte_toNat nnn _, (frame_setPc List.mem_cons_self _).toOnlyChanges⟩

end Sys2Proof.Machine
end

section
/-! PROOFS. The statements about the index register and memory transfer (44_index_memory.md) that are left: `Fx1E`,
`Fx29`, and the round trip of `Fx55` and `Fx65`. -/

namespace Sys2Proof.Machine

/-! ### The index register -/

theorem exec_addI (x : Reg) (s : State) : exec (.addI x) s = .next (s.setI (s.I + zextByte (s.getV x))) := rfl

theorem exec_ldFont (x : Reg) (s : State) : exec (.ldFont x) s =
    .next (s.setI (BitVec.ofNat 16 (fx29Address s.cfg.fx29Base + (s.getV x).toNat * 5))) := rfl

/-- Settles O24: the next state is `setI` of the sum mod 2^16. -/
theorem addRegisterToIndex : Obligations.AddRegisterToIndex := by
  refine fun x => ⟨decode_of_eq_encode (wordXKK_eq_packXKK 0xF x 0x1E), fun s =>
    ⟨_, exec_addI x s, ?sum, (frame_setI List.mem_cons_self _).toOnlyChanges⟩⟩
  rw [State.setI_I, BitVec.toNat_add, zextByte_toNat]

/-- The address of a glyph is below 2^16 for every byte: at most 0x50 + 255 * 5 (R162). -/
theorem glyphAddress_toNat (base : Fx29Base) (v : Byte) :
    (BitVec.ofNat 16 (fx29Address base + v.toNat * 5)).toNat = fx29Address base + v.toNat * 5 := by
  have hv := v.isLt
  have hbase : fx29Address base ≤ 0x50 := by cases base <;> decide
  rw [BitVec.toNat_ofNat]
  omega

/-- Settles O25: the next state is `setI` of the glyph's address, for either base. -/
theorem pointIndexAtGlyph : Obligations.PointIndexAtGlyph := by
  refine fun x => ⟨decode_of_eq_encode (wordXKK_eq_packXKK 0xF x 0x29), fun s => ?_⟩
  have hI := glyphAddress_toNat s.cfg.fx29Base (s.getV x)
  refine ⟨_, exec_ldFont x s, (frame_setI List.mem_cons_self _).toOnlyChanges, fun hbase => ?at000,
    fun hbase => ?at050⟩
  case at000 => rw [State.setI_I, hI, hbase, fx29Address, Nat.zero_add]
  case at050 => rw [State.setI_I, hI, hbase, fx29Address]

/-! ### The round trip -/

section
variable {x : Reg} {s : State} (hin : s.inRange s.I.toNat (x.val + 1))
include hin

theorem exec_store_of_inRange : exec (.store x) s =
    .next ((s.writeBytes s.I.toNat ((regsUpTo x).map s.getV)).advanceIndex x) := by
  rw [exec_store, State.access_inRange hin]

theorem exec_load_of_inRange : exec (.load x) s = .next ((s.loadRegs x).advanceIndex x) := by
  rw [exec_load, State.access_inRange hin]

end

/-- Settles O29: byte I + r of the memory `Fx55` left is V[r], and that byte is what `Fx65` loads into Vr. -/
theorem storedRegistersAreLoadedBack : Obligations.StoredRegistersAreLoadedBack := by
  intro x s t u hs hin hstore hmem hI hcfg
  cases (exec_store_of_inRange hin).symm.trans hstore
  have hin' : u.inRange u.I.toNat (x.val + 1) := by rwa [State.inRange, hI, hcfg]
  refine ⟨_, exec_load_of_inRange hin', fun r hr => ?_⟩
  calc (u.loadRegs x).getV r
    _ = u.readByte (s.I.toNat + r.val) := by rw [State.loadRegs_getV, hI]; exact if_pos hr
    _ = (s.writeBytes s.I.toNat ((regsUpTo x).map s.getV)).readByte (s.I.toNat + r.val) := by
      rw [State.readByte, hmem]; rfl
    _ = s.getV r := readByte_writeBytes_regsUpTo hs s.I.toNat hr

end Sys2Proof.Machine
end

section
/-! PROOFS. The statements about `Dxyn` (41_display.md): what it draws, when it collides, the second drawing, and the
access that leaves memory. -/

namespace Sys2Proof.Machine

/-- The framebuffer with the sprite of `Dxyn` drawn on it, and whether it collided (R101). -/
def State.drawing (s : State) (x y : Reg) (n : Height) : Drawing :=
  drawSprite (s.getV x) (s.getV y) (fun row => s.readByte (s.I.toNat + row)) n.val { fb := s.fb, hit := false }

/-- The state after a `Dxyn` that is in range (R101). -/
def State.drawn (s : State) (x y : Reg) (n : Height) : State :=
  ((s.setV VF 0).setV VF (flagByte (s.drawing x y n).hit)).setDisplay (s.drawing x y n).fb

theorem exec_drw (x y : Reg) (n : Height) (s : State) :
    exec (.drw x y n) s = .next (s.access s.I.toNat n.val (.drw x y n) fun t => t.drawn x y n) := rfl

/-- Settles O30: the four memory instructions make one range check, before their first access. -/
theorem outOfRangeAccessHaltsWithNoEffect : Obligations.OutOfRangeAccessHaltsWithNoEffect := by
  refine fun s x y n hpolicy => ⟨fun hpos hout => ?drw, fun hout => ?bcd, fun hout => ?store, fun hout => ?load⟩
  case drw =>
    exact exec_access_halts (wordXYN_eq_packXYN 0xD x y (BitVec.ofFin n)) (exec_drw x y n s) hpolicy hpos (by omega)
  case bcd =>
    exact exec_access_halts (wordXKK_eq_packXKK 0xF x 0x33) (exec_bcd x s) hpolicy (by decide) (by omega)
  case store =>
    exact exec_access_halts (wordXKK_eq_packXKK 0xF x 0x55) (exec_store x s) hpolicy x.val.succ_pos (by omega)
  case load =>
    exact exec_access_halts (wordXKK_eq_packXKK 0xF x 0x65) (exec_load x s) hpolicy x.val.succ_pos (by omega)

section
variable {s : State} {x y : Reg} {n : Height}

theorem exec_drw_of_inRange (hin : s.inRange s.I.toNat n.val) : exec (.drw x y n) s = .next (s.drawn x y n) := by
  rw [exec_drw, State.access_inRange hin]

theorem drawn_getV_VF : (s.drawn x y n).getV VF = flagByte (s.drawing x y n).hit := State.getV_setV_same ..

/-- `Dxyn` writes VF, the framebuffer and the draw flag (R101). -/
theorem frame_drawn : Frame [VF] [] [.fb, .drawFlag] s (s.drawn x y n) :=
  ((frame_setV List.mem_cons_self _).trans (frame_setV List.mem_cons_self _)).trans
    (frame_setDisplay (by decide) (by decide) _)

/-! ### Pixels and collisions -/

theorem height_le (n : Height) : n.val ≤ 32 := Nat.le_trans (Nat.le_of_lt n.isLt) (by decide)

/-- The sprite of the laws is the sprite of the statements. -/
theorem spriteHas_iff_covers {px : Fin 64} {py : Fin 32} :
    spriteHas (s.getV x) (s.getV y) (fun row => s.readByte (s.I.toNat + row)) n.val px py ↔
      SpriteCovers s x y n px py := by
  simp only [spriteHas, SpriteCovers, spriteColumn, spriteRow, Fin.ext_iff, exists_and_left]

theorem drawing_pixel_of_covers {px : Fin 64} {py : Fin 32} (h : SpriteCovers s x y n px py) :
    fbPixel (s.drawing x y n).fb px py = !fbPixel s.fb px py := by
  rw [Bool.eq_iff_iff, State.drawing, drawSprite_pixel _ _ _ (height_le n), spriteHas_iff_covers]
  simp [h]

theorem drawing_pixel_of_not_covers {px : Fin 64} {py : Fin 32} (h : ¬ SpriteCovers s x y n px py) :
    fbPixel (s.drawing x y n).fb px py = fbPixel s.fb px py := by
  rw [Bool.eq_iff_iff, State.drawing, drawSprite_pixel _ _ _ (height_le n), spriteHas_iff_covers]
  simp [h]

theorem drawing_hit :
    (s.drawing x y n).hit = true ↔ ∃ px py, SpriteCovers s x y n px py ∧ fbPixel s.fb px py = true := by
  rw [State.drawing, drawSprite_hit _ _ _ (height_le n)]
  simp only [spriteHas_iff_covers, Bool.false_eq_true, false_or]

end

theorem flagByte_eq_one {c : Bool} : flagByte c = 1 ↔ c = true := by
  cases c <;> decide

/-- Settles O32: the pixels and the collision by the laws of a sprite, the rest by `frame_drawn`. -/
theorem drawSpriteXorsAndReportsCollision : Obligations.DrawSpriteXorsAndReportsCollision := by
  refine fun x y n => ⟨decode_of_eq_encode (wordXYN_eq_packXYN 0xD x y (BitVec.ofFin n)), fun s hin =>
    ⟨_, exec_drw_of_inRange hin, fun _ _ => drawing_pixel_of_covers, fun _ _ => drawing_pixel_of_not_covers,
      fun hhit => ?hit, fun hmiss => ?miss, rfl, frame_drawn.toOnlyChanges⟩⟩
  case hit => rw [drawn_getV_VF, drawing_hit.2 hhit]; rfl
  case miss =>
    have hnot : ¬ (s.drawing x y n).hit = true := fun h => by
      obtain ⟨px, py, hcovers, hset⟩ := drawing_hit.1 h
      simp [hmiss px py hcovers] at hset
    rw [drawn_getV_VF, Bool.eq_false_of_not_eq_true hnot]; rfl

/-! ### The second drawing -/

/-- A drawing does not move its own sprite, as long as neither coordinate stands in VF (R101). -/
theorem covers_drawn {x y : Reg} (hx : x ≠ VF) (hy : y ≠ VF) {n : Height} {s : State} {px : Fin 64} {py : Fin 32} :
    SpriteCovers (s.drawn x y n) x y n px py ↔ SpriteCovers s x y n px py := by
  have hkeep {r : Reg} (hr : r ≠ VF) : (s.drawn x y n).getV r = s.getV r :=
    frame_drawn.regs_same r (by simpa using hr)
  rw [SpriteCovers, hkeep hx, hkeep hy]
  rfl

/-- Settles O33: a covered pixel is flipped twice, any other not at all; the second drawing collides where the first
left a 1, which is where a 0 was. -/
theorem drawingTwiceRestoresTheFramebuffer : Obligations.DrawingTwiceRestoresTheFramebuffer := by
  intro x y n s hx hy hin
  have hsame {px : Fin 64} {py : Fin 32} := covers_drawn hx hy (n := n) (s := s) (px := px) (py := py)
  refine ⟨_, _, exec_drw_of_inRange hin, exec_drw_of_inRange (s := s.drawn x y n) hin, ?restored, ?flag, ?second⟩
  case restored =>
    refine framebuffer_ext fun px py => ?_
    by_cases hcovers : SpriteCovers s x y n px py
    · calc fbPixel ((s.drawn x y n).drawn x y n).fb px py
        _ = !fbPixel (s.drawn x y n).fb px py := drawing_pixel_of_covers (hsame.2 hcovers)
        _ = !!fbPixel s.fb px py := congrArg not (drawing_pixel_of_covers hcovers)
        _ = fbPixel s.fb px py := Bool.not_not _
    · exact (drawing_pixel_of_not_covers (mt hsame.1 hcovers)).trans (drawing_pixel_of_not_covers hcovers)
  case flag =>
    rw [drawn_getV_VF]
    cases ((s.drawn x y n).drawing x y n).hit <;> decide
  case second =>
    rw [drawn_getV_VF, flagByte_eq_one, drawing_hit]
    refine exists_congr fun px => exists_congr fun py => ?_
    rw [hsame]
    refine and_congr_right fun hcovers => ?_
    have hflip : fbPixel (s.drawn x y n).fb px py = !fbPixel s.fb px py := drawing_pixel_of_covers hcovers
    rw [hflip, Bool.not_eq_true']

end Sys2Proof.Machine
end

section
/-! PROOFS. The statements about the keypad and the timers (45_keys_timers.md) that are left: the skips on a key, and
the ticks that follow a write to a timer. -/

namespace Sys2Proof.Machine

/-! ### The skips on a key -/

/-- The byte of Vx names the key k: it is k, or it is k mod 16 under the policy `mask` (R180). -/
theorem keyNumber_of_names {s : State} {v : Byte} {k : Key}
    (h : v.toNat = k.val ∨ (s.cfg.keyIndex = .mask ∧ v.toNat % 16 = k.val)) : s.keyNumber v = some k := by
  obtain hk | ⟨hpolicy, hk⟩ := h
  · rw [State.keyNumber_inRange s (hk.trans_lt k.isLt)]
    exact congrArg some (Fin.ext hk)
  · rw [State.keyNumber_mask hpolicy]
    exact congrArg some (Fin.ext hk)

/-- The bytes `ExA1` skips are the complement of those `Ex9E` skips (R181). -/
theorem ite_not_two (b : Bool) : (if !b then 2 else 0) = if b then 0 else 2 := by
  cases b <;> rfl

/-- Settles O35: both instructions answer `skipIf`, on the key and on its complement. -/
theorem skipsOnAKey : Obligations.SkipsOnAKey := by
  refine fun x => ⟨decode_of_eq_encode (wordXKK_eq_packXKK 0xE x 0x9E),
    decode_of_eq_encode (wordXKK_eq_packXKK 0xE x 0xA1), fun s k hnames => ?_⟩
  have hkey := keyNumber_of_names hnames
  exact ⟨answers_of_exec_skipIf (exec_skp_of_key hkey) rfl,
    answers_of_exec_skipIf (exec_sknp_of_key hkey) (ite_not_two _)⟩

/-- Settles O36: a number above 15 names no key under the policy `fault`, and both instructions raise. -/
theorem keyNumberOutOfRangeHalts : Obligations.KeyNumberOutOfRangeHalts := by
  intro x s hpolicy hlarge
  have hnoKey := State.keyNumber_outOfRange hpolicy hlarge
  exact ⟨⟨_, exec_skp_of_noKey hnoKey, haltedBy_raise (wordXKK_eq_packXKK 0xE x 0x9E) _⟩,
    ⟨_, exec_sknp_of_noKey hnoKey, haltedBy_raise (wordXKK_eq_packXKK 0xE x 0xA1) _⟩⟩

/-! ### The ticks after a write to a timer -/

theorem iterate_timerTick_ST (s : State) (k : Nat) : (State.timerTick^[k] s).ST.toNat = s.ST.toNat - k := by
  induction k with
  | zero => rfl
  | succ k ih => rw [Function.iterate_succ_apply', State.timerTick_ST, tickDown_toNat, ih, Nat.sub_sub]

/-- The tick that follows k others beeps when it takes ST from 1 to 0 (R210). -/
theorem iterate_timerTick_beep (s : State) (k : Nat) :
    (State.timerTick^[k + 1] s).out.beep = true ↔ s.ST.toNat = k + 1 := by
  have hone : (1 : Byte).toNat = 1 := rfl
  rw [Function.iterate_succ_apply', State.timerTick_out, beq_iff_eq, ← BitVec.toNat_inj, iterate_timerTick_ST, hone]
  omega

/-- Settles O38: each execute phase is one update, and the k-th tick after it is the (k + 1)-th of the state it
left. -/
theorem timerWritesTickInTheSameStep : Obligations.TimerWritesTickInTheSameStep := by
  refine fun x y s => ⟨?fromDT, ?toDT, ?toST⟩
  case fromDT => exact ⟨_, exec_ldFromDT x s, s.getV_setV_same x s.DT, tickDown_toNat s.DT⟩
  case toDT =>
    refine ⟨_, _, exec_ldToDT x s, tickDown_toNat _, exec_ldFromDT y _, ?_⟩
    rw [State.getV_setV_same]
    exact tickDown_toNat (s.getV x)
  case toST =>
    exact ⟨_, exec_ldToST x s, fun k =>
      ⟨iterate_timerTick_ST (s.setST (s.getV x)) (k + 1), iterate_timerTick_beep (s.setST (s.getV x)) k⟩⟩

end Sys2Proof.Machine
end

section
/-! PROOFS. The statements about the step (40_step_cycle.md) that are left: its sequence, and the fetch that leaves
memory. -/

namespace Sys2Proof.Machine

theorem endStep_eq_ite (s : State) : s.endStep = if s.status = .running then s.timerTick else s := by
  cases h : s.status with
  | running => rw [State.endStep_running h, if_pos rfl]
  | halted r => rw [State.endStep_halted h, if_neg nofun]

/-- Settles O41: `step_halted`, `step_instr` and `step_unknown_ticks`; the reported `A` is the pc, advanced and
back. -/
theorem stepRunsTheDecodedInstruction : Obligations.StepRunsTheDecodedInstruction := by
  refine fun s => ⟨fun r hr => step_halted hr, fun hrun hin => ⟨fun i u hd he => ?instr, fun w hd => ?unknown⟩⟩
  case instr => rw [step_instr hrun hin hd he, endStep_eq_ite]
  case unknown =>
    have hback : s.quiet.advance.fetchAddress = s.pc := BitVec.add_sub_cancel s.pc 2
    rw [step_unknown_ticks hrun hin hd, State.reportUnknown, hback]
    rfl

theorem frame_halt {regs : List Reg} {cells : List Nat} {parts : List Part} {s : State} (h : .status ∈ parts)
    (r : FaultRecord) : Frame regs cells parts s (s.halt r) :=
  .of_parts rfl rfl fun p hp => by cases p <;> simp_all [Part.same]

/-- Settles O44: two bytes from 4095 or above leave memory, so the step is `fetchFault` with the outputs cleared. -/
theorem fetchOutOfRangeHalts : Obligations.FetchOutOfRangeHalts := by
  intro s hrun hpolicy hpc
  have hout : 4096 < s.pc.toNat + 2 := by omega
  exact ⟨_, step_fetchFault hrun hpolicy hout, rfl, rfl,
    ((frame_quiet (by decide)).trans (frame_halt (by decide) _)).toOnlyChanges⟩

end Sys2Proof.Machine
end

section
/-! PROOFS. The fatal faults (60_exceptions.md section 2): which instruction raises which, under what condition, and
that a halted execute phase is a raised fault and nothing else. -/

namespace Sys2Proof.Machine

/-- The instruction raises the fault from this state by its rule (R110, R112, R180, R181, R203). -/
def FatalCause.RaisedBy (i : Instr) (s : State) : FatalCause → Prop
  | .stackUnderflow => i = .ret ∧ s.stack = []
  | .stackOverflow => (∃ nnn, i = .call nnn) ∧ 16 ≤ s.stack.length
  | .keyIndexOutOfRange v =>
    s.cfg.keyIndex = .fault ∧ 15 < v.toNat ∧ ∃ x, v = s.getV x ∧ (i = .skp x ∨ i = .sknp x)
  | .addressOutOfRange a =>
    s.cfg.memOob = .fault ∧ 4096 ≤ a ∧ ∃ x, i = .bcd x ∨ i = .store x ∨ i = .load x ∨ ∃ y n, i = .drw x y n

theorem FatalCause.RaisedBy.of_eq {i : Instr} {s : State} {c c' : FatalCause} (h : c.RaisedBy i s) (hc : c = c') :
    c'.RaisedBy i s := hc ▸ h

/-- The next state is a fault of `i` raised from `s`. -/
def RaisesInto (i : Instr) (s t : State) : Prop := ∃ c : FatalCause, t = s.raise c i ∧ c.RaisedBy i s

/-- A byte names no key exactly when it exceeds 15 under the policy `fault` (R180, R202). -/
theorem keyNumber_eq_none {s : State} {v : Byte} :
    s.keyNumber v = none ↔ s.cfg.keyIndex = .fault ∧ 15 < v.toNat := by
  refine ⟨fun h => ?_, fun ⟨hpolicy, hlarge⟩ => State.keyNumber_outOfRange hpolicy hlarge⟩
  cases hpolicy : s.cfg.keyIndex with
  | mask => simp [State.keyNumber_mask hpolicy] at h
  | fault =>
    refine ⟨rfl, Nat.lt_of_not_le fun hle => ?_⟩
    simp [s.keyNumber_inRange (Nat.lt_succ_of_le hle)] at h

section
variable {i : Instr} {s t : State} {r : FaultRecord} (hs : s.status = .running) (ht : t.status = .halted r)
include hs ht

/-- Only an update that writes the run status halts a running engine. -/
theorem status_ne_of_halted : t.status ≠ s.status := by
  rw [hs, ht]
  exact nofun

theorem status_mem_writtenParts_of_halted (h : exec i s = .next t) : .status ∈ writtenParts i :=
  by_contra fun hnot => status_ne_of_halted hs ht ((exec_frame h).parts_same .status hnot)

/-- A memory instruction that halts has raised the fault of its range check, if its effect keeps the run status. -/
theorem raises_of_access_halted {base count : Nat} {effect : State → State}
    (hi : ∃ x, i = .bcd x ∨ i = .store x ∨ i = .load x ∨ ∃ y n, i = .drw x y n)
    (heffect : (effect s).status = s.status) (heq : t = s.access base count i effect) : RaisesInto i s t := by
  obtain ⟨-, hdone⟩ | ⟨-, hpolicy, -, -, hraised⟩ := s.access_cases base count i effect
  · exact absurd (by rw [heq, hdone, heffect]) (status_ne_of_halted hs ht)
  · exact ⟨_, heq.trans hraised, hpolicy, Nat.le_max_right .., hi⟩

/-- An execute phase that halts a running engine has raised one fault and done nothing else (R95, R208). -/
theorem raises_of_exec_halted (h : exec i s = .next t) : RaisesInto i s t := by
  have hwritten := status_mem_writtenParts_of_halted hs ht h
  have hne := status_ne_of_halted hs ht
  cases i with
  | ret =>
    cases hstack : s.stack with
    | nil => cases (exec_ret_of_nil hstack).symm.trans h; exact ⟨_, rfl, rfl, hstack⟩
    | cons v rest => cases (exec_ret_of_cons hstack).symm.trans h; exact absurd rfl hne
  | call nnn =>
    rcases Nat.lt_or_ge s.stack.length 16 with hroom | hfull
    · cases (exec_call_of_room hroom nnn).symm.trans h; exact absurd rfl hne
    · cases (exec_call_of_full hfull nnn).symm.trans h; exact ⟨_, rfl, ⟨nnn, rfl⟩, hfull⟩
  | skp x =>
    cases hk : s.keyNumber (s.getV x) with
    | none =>
      obtain ⟨hpolicy, hlarge⟩ := keyNumber_eq_none.1 hk
      cases (exec_skp_of_noKey hk).symm.trans h
      exact ⟨_, rfl, hpolicy, hlarge, x, rfl, .inl rfl⟩
    | some k => cases (exec_skp_of_key hk).symm.trans h; exact absurd rfl hne
  | sknp x =>
    cases hk : s.keyNumber (s.getV x) with
    | none =>
      obtain ⟨hpolicy, hlarge⟩ := keyNumber_eq_none.1 hk
      cases (exec_sknp_of_noKey hk).symm.trans h
      exact ⟨_, rfl, hpolicy, hlarge, x, rfl, .inr rfl⟩
    | some k => cases (exec_sknp_of_key hk).symm.trans h; exact absurd rfl hne
  | drw x y n =>
    cases h
    exact raises_of_access_halted hs ht ⟨x, .inr (.inr (.inr ⟨y, n, rfl⟩))⟩ rfl rfl
  | bcd x =>
    cases h
    exact raises_of_access_halted hs ht ⟨x, .inl rfl⟩ (s.writeBytes_status ..) rfl
  | store x =>
    cases h
    exact raises_of_access_halted hs ht ⟨x, .inr (.inl rfl)⟩ (s.writeBytes_status ..) rfl
  | load x =>
    cases h
    exact raises_of_access_halted hs ht ⟨x, .inr (.inr (.inl rfl))⟩ (by rw [s.loadRegs_eq]; rfl) rfl
  | _ => exact absurd hwritten (by simp [writtenParts])

end

/-- Settles O48: the halted state is one raised fault, whose cause says where it came from. -/
theorem fatalFaultsArePreciseAndOwn : Obligations.FatalFaultsArePreciseAndOwn := by
  intro i s t r hs h ht
  obtain ⟨c, rfl, hraised⟩ := raises_of_exec_halted hs ht h
  obtain rfl : _ = r := RunStatus.halted.inj ht
  exact ⟨(frame_raise List.mem_cons_self c i).toOnlyChanges, rfl, rfl, fun hc => hraised.of_eq hc,
    fun hc => hraised.of_eq hc, fun _ hc => hraised.of_eq hc, fun _ hc => hraised.of_eq hc⟩

end Sys2Proof.Machine
end

section
/-! PROOFS. The statements about construction, reset and the host's actions (70_reset_and_hazards.md section 1 and
60_exceptions.md section 5). -/

namespace Sys2Proof.Machine

/-! ### Construction -/

/-- Only the addresses of the font have a byte of their own after construction (R53). -/
theorem unlisted_outside_font {a : Nat} (h : a < 0x050 ∨ 0x0A0 ≤ a) : unlisted a = 0 := by
  unfold unlisted
  split
  · rfl
  · next hge =>
    have hlen : defaultFont.length ≤ a - fontBase := by
      have : defaultFont.length = 80 := rfl
      simp only [fontBase] at hge ⊢
      omega
    rw [List.getD_eq_getElem?_getD, List.getElem?_eq_none hlen, Option.getD_none]

section
variable {cfg : Config} {font : List Byte} (hfont : fontTableWf font = true)
include hfont

theorem readByte_construct_font {k : Nat} (hk : k < font.length) :
    (construct cfg font).readByte (0x050 + k) = font[k] := by
  have hlen : font.length ≤ memSize := (beq_iff_eq.1 hfont).trans_le (by decide)
  exact State.readByte_writeBytes (s := { State.reset with cfg := cfg }) resetMeetsTheInvariant.mem_wf hlen hk

theorem readByte_construct_other {a : Nat} (ha : a < 4096) (hout : a < 0x050 ∨ 0x0A0 ≤ a) :
    (construct cfg font).readByte a = 0 := by
  have hlen : font.length = 80 := beq_iff_eq.1 hfont
  have hapart : ∀ k < font.length, ea a ≠ ea (fontBase + k) := by
    simp only [ea, memSize, fontBase]
    omega
  calc (construct cfg font).readByte a
    _ = ({ State.reset with cfg := cfg } : State).readByte a := State.readByte_writeBytes_other _ hapart
    _ = unlisted a := congrArg unlisted (ea_of_lt ha)
    _ = 0 := unlisted_outside_font hout

end

/-- Settles O54: `writeBytes` keeps every field but memory, whose bytes are the font and zeros. -/
theorem constructionSetsEveryField : Obligations.ConstructionSetsEveryField := by
  intro cfg font hfont
  have hV (r : Reg) : (construct cfg font).getV r = 0 :=
    (State.writeBytes_getV ..).trans (Vector.getElem_replicate r.isLt)
  have hkeys : (construct cfg font).keys = Vector.replicate 16 false := State.writeBytes_keys ..
  have hkey (k : Key) : (construct cfg font).keyDown k = false := by
    rw [State.keyDown, hkeys]
    exact Vector.getElem_replicate k.isLt
  have hfb : (construct cfg font).fb = Vector.replicate 32 0 := State.writeBytes_fb ..
  exact ⟨hV, State.writeBytes_I .., State.writeBytes_pc .., State.writeBytes_stack .., State.writeBytes_DT ..,
    State.writeBytes_ST .., hkey, fun px py => hfb ▸ fbPixel_clear px py, State.writeBytes_drawFlag ..,
    State.writeBytes_status .., State.writeBytes_cfg .., State.writeBytes_out .., State.writeBytes_draws ..,
    fun _ => readByte_construct_font hfont, fun _ => readByte_construct_other hfont⟩

/-- Settles O55: writing the default font changes no byte, so memory lists nothing. -/
theorem resetIsTheDefaultConstruction : Obligations.ResetIsTheDefaultConstruction := by
  have hconstruct : State.reset = construct (.decided .allOff) defaultFont := by decide
  exact ⟨hconstruct, rfl, rfl, rfl, rfl, rfl⟩

/-! ### The host's key and draw-flag actions -/

theorem keyDown_setKey (s : State) (k j : Key) (down : Bool) :
    (s.setKey k down).keyDown j = if j = k then down else s.keyDown j := by
  simp only [State.keyDown, State.setKey_keys, Vector.get_eq_getElem, Vector.getElem_set, Fin.ext_iff, eq_comm]

section
variable {regs : List Reg} {cells : List Nat} {parts : List Part} {s : State}

theorem frame_setKey (h : .keys ∈ parts) (k : Key) (down : Bool) : Frame regs cells parts s (s.setKey k down) :=
  .of_parts rfl rfl fun p hp => by cases p <;> simp_all [Part.same]

theorem frame_clearDrawFlag (h : .drawFlag ∈ parts) : Frame regs cells parts s s.clearDrawFlag :=
  .of_parts rfl rfl fun p hp => by cases p <;> simp_all [Part.same]

end

/-- Settles O58: each action is one update of the state, with the frame of that update. -/
theorem keyAndDrawFlagActions : Obligations.KeyAndDrawFlagActions := fun s k down =>
  ⟨fun j => keyDown_setKey s k j down, (frame_setKey List.mem_cons_self k down).toOnlyChanges, rfl,
    (frame_clearDrawFlag List.mem_cons_self).toOnlyChanges⟩

end Sys2Proof.Machine
end
